-- ==== Sys2Proof/Word.lean ====
section
/-! DEFINITION. The words and byte strings of the engine (`00_scope.md` R13, R16): a byte, a byte string, a 32-bit
header or status word, and the string of zero bytes. -/

namespace Sys2Proof

/-- A byte, an integer in `0..255` (`00_scope.md` R13). -/
abbrev Byte := BitVec 8

/-- A byte string; the first element is `s[0]`, the first byte supplied or listed (`00_scope.md` R13). -/
abbrev Bytes := List Byte

/-- A header word or a status register: a 32-bit unsigned value (`00_scope.md` R16, `20_memory.md` R46). -/
abbrev Word := BitVec 32

/-- `zeros(n)`: `n` bytes of value 0 (`00_scope.md` R13). -/
def zeros (n : Nat) : Bytes := List.replicate n 0

end Sys2Proof
end

