-- ==== Sys2Proof/Syntax.lean ====
section
/-! DEFINITION. The syntax of the engine: the six modes, the two directions, the packets and status reads a host
presents (`30_encoding.md` R60, R75), and the one inductive `Instr` with one constructor per row of
`spec/opcode_table.json`. -/

namespace Sys2Proof

/-- The closed set of six modes (`00_scope.md` R3, `10_state.md` R21). -/
inductive Mode where
  | ecb | cbc | cfb | ofb | ctr | xts
  deriving DecidableEq, Repr

/-- The mode numbers of the `MODE` field and the `MODE` register (`30_encoding.md` R67). -/
def Mode.number : Mode → Nat
  | .ecb => 0
  | .cbc => 1
  | .cfb => 2
  | .ofb => 3
  | .ctr => 4
  | .xts => 5

/-- The direction of a data command (`41_engine_commands.md` R93, R99). -/
inductive Dir where
  | encrypt | decrypt
  deriving DecidableEq, Repr

/-- A command packet: one 32-bit header word and its payload bytes (`30_encoding.md` R60). -/
structure Packet where
  header  : Word
  payload : Bytes
  deriving DecidableEq, Repr

/-- What a host can present at the engine's ports: a packet at the command port (`30_encoding.md` R60) or a register
number at the status port (R75). -/
inductive Request where
  | packet (p : Packet)
  | statusRead (n : Nat)
  deriving DecidableEq, Repr

/-- The commands of the engine, one constructor per row of `spec/opcode_table.json` (`30_encoding.md` R68, R75).
An absent operand of CONSTRUCT is the empty string (R63). -/
inductive Instr where
  | constructEcb (key iv ctr sector : Bytes)
  | constructCbc (key iv ctr sector : Bytes)
  | constructCfb (key iv ctr sector : Bytes)
  | constructOfb (key iv ctr sector : Bytes)
  | constructCtr (key iv ctr sector : Bytes)
  | constructXts (key iv ctr sector : Bytes)
  | enc (data : Bytes)
  | encLast (data : Bytes)
  | dec (data : Bytes)
  | decLast (data : Bytes)
  | restart
  | destroy
  | sr (n : Nat)
  deriving DecidableEq, Repr

end Sys2Proof
end

