-- ==== Sys2Proof/Config.lean ====
section
/-! DEFINITION. The implementation parameters of the engine (`00_scope.md` R7 to R10, `10_state.md` R39,
`93_implementation_defined.md` section 3): block size, key sizes and the pair of block functions. What the spec leaves
to the implementation is an opaque constant with no body, so no proof can see a value of it. `TWEAK_ORDER` has the
one admitted value `little` (R10) and is coded in `Machine/Operands.lean`. -/

namespace Sys2Proof

/-- Which pair of block functions `E`, `D` is attached (`40_block_primitive.md` R83, R87).
`attached` is the uninterpreted pair the spec's engine is a parameter of; `toy` is the spec's own test device
`TOY<n>` (`95_test_vectors.md` section 2), admitted so that the spec's vectors can be run through `step`. -/
inductive Transform where
  | attached | toy
  deriving DecidableEq, Repr

/-- The attached block primitive as plain data: `BS` (`00_scope.md` R7), `KEYSIZES` (R9), and the pair `E`, `D` (R8). -/
structure Primitive where
  blockSize : Nat
  keySizes  : List Nat
  transform : Transform
  deriving DecidableEq, Repr

/-- `1 <= BS <= 63`; `KEYSIZES` is a non-empty set of positive integers (`00_scope.md` R7, R9). -/
def Primitive.Admissible (p : Primitive) : Prop :=
  1 ≤ p.blockSize ∧ p.blockSize ≤ 63 ∧ p.keySizes ≠ [] ∧ ∀ n ∈ p.keySizes, 1 ≤ n

/-- `n` is a member of `KEYSIZES`; the members are positive (`00_scope.md` R9), so 0 never is. -/
def Primitive.accepts (p : Primitive) (n : Nat) : Bool := n != 0 && p.keySizes.contains n

/-- A block of `n` bytes (`00_scope.md` R13). -/
abbrev Block (n : Nat) := {b : Bytes // b.length = n}

/-- The uninterpreted keyed permutation of the `bs`-byte blocks: `E(k, .)`, with `D(k, .)` its inverse
(`40_block_primitive.md` R80 to R83). Free: log entry 4. -/
opaque Config.cipher : (bs : Nat) → Bytes → Equiv.Perm (Block bs)

/-- Free: the block size of the primitive that is attached at reset, less one, taken modulo 63 (`00_scope.md` R7). -/
opaque Config.blockSizeSeed : Nat

/-- Free: the key sizes of the primitive attached at reset, each less one (`00_scope.md` R9). -/
opaque Config.keySizeSeed : Nat × List Nat

/-- The primitive the hardware is built with: any `BS` in `1..63` and any non-empty set of positive key sizes, none
of which a proof can evaluate (`00_scope.md` R7 to R9; log entry 1). -/
def Config.attached : Primitive where
  blockSize := Config.blockSizeSeed % 63 + 1
  keySizes := (Config.keySizeSeed.1 :: Config.keySizeSeed.2).map (· + 1)
  transform := .attached

end Sys2Proof
end

