-- ==== Sys2Proof/Machine/Operands.lean ====
section
/-! DEFINITION. The pure byte-string and integer functions the commands compute with: `xor`, `be_int`, `le_int` and
their inverses (`00_scope.md` R14, R15), the counter increment (`45_ctr.md` R132) and the multiplication by alpha
(`46_xts.md` R142). -/

namespace Sys2Proof.Machine

/-- `a xor b`, byte by byte; the spec uses it between equal lengths only (`00_scope.md` R15). -/
def xorB (a b : Bytes) : Bytes := List.zipWith (fun x y => x ^^^ y) a b

/-- `be_int(s)`: `s[0]` is the most significant byte (`00_scope.md` R14). -/
def beInt : Bytes → Nat
  | [] => 0
  | b :: rest => b.toNat * 256 ^ rest.length + beInt rest

/-- `be_bytes(v, n)`, the inverse of `be_int` (`00_scope.md` R14). -/
def beBytes (v : Nat) : Nat → Bytes
  | 0 => []
  | n + 1 => BitVec.ofNat 8 (v / 256 ^ n) :: beBytes v n

/-- `le_int(s)`: `s[0]` is the least significant byte (`00_scope.md` R14). -/
def leInt : Bytes → Nat
  | [] => 0
  | b :: rest => b.toNat + 256 * leInt rest

/-- `le_bytes(v, n)`, the inverse of `le_int` (`00_scope.md` R14). -/
def leBytes (v : Nat) : Nat → Bytes
  | 0 => []
  | n + 1 => BitVec.ofNat 8 v :: leBytes (v / 256) n

/-- `inc(c)`, the counter increment: big-endian, silent wraparound at the block's width (`45_ctr.md` R132, R135). -/
def inc (c : Bytes) : Bytes := beBytes ((beInt c + 1) % 2 ^ (8 * c.length)) c.length

/-- `mul_alpha(t)` in GF(2^128): a one-bit left shift of the little-endian 128-bit value and, when the top bit falls
out, an xor of `0x87` into the low byte (`46_xts.md` R142, `00_scope.md` R10). -/
def mulAlpha (t : Bytes) : Bytes :=
  let v := leInt t
  let shifted := v * 2 % 2 ^ 128
  leBytes (if v / 2 ^ 127 % 2 = 1 then shifted ^^^ 0x87 else shifted) 16

end Sys2Proof.Machine
end

