-- ==== Sys2Proof/Machine/BlockPrimitive.lean ====
section
/-! DEFINITION. The two micro-operations by which every rule reaches the block primitive, `EB` and `DB`
(`40_block_primitive.md` R80, R81), for the uninterpreted pair and for the spec's toy pair. -/

namespace Sys2Proof.Machine

/-- `n` bytes made of `b`: cut, or filled up with zero bytes. It is `b` itself for the `n`-byte blocks the engine
uses (`20_memory.md` R49); what the primitive does on anything else is outside its contract (log entry 4). -/
def fit (n : Nat) (b : Bytes) : Bytes := (b ++ zeros n).take n

theorem length_fit (n : Nat) (b : Bytes) : (fit n b).length = n := by
  simp [fit, zeros]

/-- Rotation left by one whole byte (`95_test_vectors.md` section 2). -/
def rotl1 (b : Bytes) : Bytes := b.drop 1 ++ b.take 1

/-- Rotation right by one whole byte (`95_test_vectors.md` section 2). -/
def rotr1 (b : Bytes) : Bytes := b.drop (b.length - 1) ++ b.take (b.length - 1)

/-- `E(k, B)` (`40_block_primitive.md` R80). -/
def E (p : Primitive) (k b : Bytes) : Bytes :=
  match p.transform with
  | .attached => (Config.cipher p.blockSize k ⟨fit p.blockSize b, length_fit _ _⟩).1
  | .toy => xorB (rotl1 (fit p.blockSize b)) (fit p.blockSize k)

/-- `D(k, B)` (`40_block_primitive.md` R81). -/
def D (p : Primitive) (k b : Bytes) : Bytes :=
  match p.transform with
  | .attached => ((Config.cipher p.blockSize k).symm ⟨fit p.blockSize b, length_fit _ _⟩).1
  | .toy => rotr1 (xorB (fit p.blockSize b) (fit p.blockSize k))

end Sys2Proof.Machine
end

