-- ==== Sys2Proof/WellFormed.lean ====
section
/-! DEFINITION. Which commands an encoding exists for: every operand fits the length field its format gives it
(`30_encoding.md` R63, R64). -/

namespace Sys2Proof

/-- The operands of a CONSTRUCT fit `KLEN` (7 bits) and `IVLEN`, `CLEN`, `SLEN` (6 bits each) (`30_encoding.md` R63). -/
def constructFits (key iv ctr sector : Bytes) : Bool :=
  decide (key.length ≤ 127) && decide (iv.length ≤ 63) && decide (ctr.length ≤ 63) && decide (sector.length ≤ 63)

/-- The operand of a data command fits `DLEN` (24 bits) (`30_encoding.md` R64). -/
def dataFits (data : Bytes) : Bool := decide (data.length ≤ 16777215)

/-- A well-formed command: one that a packet, or a status read, can carry (`30_encoding.md` R63 to R65, R75). -/
def WellFormed : Instr → Bool
  | .constructEcb key iv ctr sector => constructFits key iv ctr sector
  | .constructCbc key iv ctr sector => constructFits key iv ctr sector
  | .constructCfb key iv ctr sector => constructFits key iv ctr sector
  | .constructOfb key iv ctr sector => constructFits key iv ctr sector
  | .constructCtr key iv ctr sector => constructFits key iv ctr sector
  | .constructXts key iv ctr sector => constructFits key iv ctr sector
  | .enc data => dataFits data
  | .encLast data => dataFits data
  | .dec data => dataFits data
  | .decLast data => dataFits data
  | .restart => true
  | .destroy => true
  | .sr _ => true

end Sys2Proof
end

