-- ==== Sys2Proof/Decode.lean ====
section
/-! DEFINITION. Decoding of packets and status reads, total and rejecting by name (`30_encoding.md` R62 to R71,
R75), and after it the encoder written from the same format tables. -/

namespace Sys2Proof

/-- Why a packet is `Illegal` (`30_encoding.md` R70, `60_exceptions.md` R168). -/
inductive Illegal where
  /-- `OP` is 0 or 6 or more. -/
  | reservedOpcode
  /-- Format K with `MODE` 6 or 7. -/
  | reservedMode
  /-- A must-be-zero bit of format D or Z is set. -/
  | reservedBits
  /-- The payload's length is not the one the header declares. -/
  | payloadLength
  deriving DecidableEq, Repr

/-- `v[hi:lo] = (v >> lo) mod 2^(hi-lo+1)` (`00_scope.md` R16). -/
def field (hi lo : Nat) (w : Word) : Nat := w.toNat / 2 ^ lo % 2 ^ (hi - lo + 1)

/-- The mode a mode number stands for; 6 and 7 are reserved (`30_encoding.md` R67). -/
def modeOfNumber : Nat → Option Mode
  | 0 => some .ecb
  | 1 => some .cbc
  | 2 => some .cfb
  | 3 => some .ofb
  | 4 => some .ctr
  | 5 => some .xts
  | _ => none

/-- The CONSTRUCT command of a mode (`30_encoding.md` R68). -/
def constructInstr : Mode → Bytes → Bytes → Bytes → Bytes → Instr
  | .ecb => .constructEcb
  | .cbc => .constructCbc
  | .cfb => .constructCfb
  | .ofb => .constructOfb
  | .ctr => .constructCtr
  | .xts => .constructXts

/-- The data command of a direction and a LAST flag (`30_encoding.md` R64, R68). -/
def dataInstr : Dir → Bool → Bytes → Instr
  | .encrypt, false => .enc
  | .encrypt, true => .encLast
  | .decrypt, false => .dec
  | .decrypt, true => .decLast

/-- `KLEN = H[24:18]`, `IVLEN = H[17:12]`, `CLEN = H[11:6]`, `SLEN = H[5:0]` (`30_encoding.md` R63). -/
def klenOf (h : Word) : Nat := field 24 18 h
@[inherit_doc klenOf] def ivlenOf (h : Word) : Nat := field 17 12 h
@[inherit_doc klenOf] def clenOf (h : Word) : Nat := field 11 6 h
@[inherit_doc klenOf] def slenOf (h : Word) : Nat := field 5 0 h

/-- Format K (`30_encoding.md` R63, R66, R69 step 2): the operands are cut from the payload in the order key, IV,
counter, sector block. -/
def decodeK (h : Word) (payload : Bytes) : Except Illegal Instr :=
  match modeOfNumber (field 27 25 h) with
  | none => .error .reservedMode
  | some mode =>
    if payload.length = klenOf h + ivlenOf h + clenOf h + slenOf h then
      .ok (constructInstr mode
        (payload.take (klenOf h))
        ((payload.drop (klenOf h)).take (ivlenOf h))
        ((payload.drop (klenOf h + ivlenOf h)).take (clenOf h))
        ((payload.drop (klenOf h + ivlenOf h + clenOf h)).take (slenOf h)))
    else .error .payloadLength

/-- Format D (`30_encoding.md` R64, R66, R69 step 3). -/
def decodeD (dir : Dir) (h : Word) (payload : Bytes) : Except Illegal Instr :=
  if field 26 24 h ≠ 0 then .error .reservedBits
  else if payload.length = field 23 0 h then .ok (dataInstr dir (field 27 27 h == 1) payload)
  else .error .payloadLength

/-- Format Z (`30_encoding.md` R65, R69 step 4). -/
def decodeZ (i : Instr) (h : Word) (payload : Bytes) : Except Illegal Instr :=
  if field 27 0 h ≠ 0 then .error .reservedBits
  else if payload.length = 0 then .ok i
  else .error .payloadLength

/-- `Decode(H, payload)` (`30_encoding.md` R69): total, selected by `OP = H[31:28]`. -/
def decodePacket (p : Packet) : Except Illegal Instr :=
  match field 31 28 p.header with
  | 1 => decodeK p.header p.payload
  | 2 => decodeD .encrypt p.header p.payload
  | 3 => decodeD .decrypt p.header p.payload
  | 4 => decodeZ .restart p.header p.payload
  | 5 => decodeZ .destroy p.header p.payload
  | _ => .error .reservedOpcode

/-- What a host's request asks for: a packet is decoded (`30_encoding.md` R69); a register number at the status port
is the status read of that number (R75). -/
def decode : Request → Except Illegal Instr
  | .packet p => decodePacket p
  | .statusRead n => .ok (.sr n)

/-- The payload length a header declares (`30_encoding.md` R63 to R65); 0 where `OP` is reserved. -/
def declaredLength (h : Word) : Nat :=
  match field 31 28 h with
  | 1 => klenOf h + ivlenOf h + clenOf h + slenOf h
  | 2 => field 23 0 h
  | 3 => field 23 0 h
  | _ => 0

/-- Byte `i` of a number's payload part: the bits from `32 + 8*i` on. -/
def tableByte (w i : Nat) : Byte := BitVec.ofNat 8 (w / 2 ^ (32 + 8 * i))

/-- The request that the number `w`, an opcode-table row of `nbits` bits, stands for: bits 31..0 are the header, the
bytes above them the payload, filled up with zero bytes to the length the header declares. A row of no bits at all
is the status read, which is no packet (`30_encoding.md` R75): `w` is then the register number. Log entry 5. -/
def tableRequest (nbits w : Nat) : Request :=
  if nbits = 0 then .statusRead w
  else
    let v := w % 2 ^ nbits
    let h : Word := BitVec.ofNat 32 v
    .packet ⟨h, (List.range (max (declaredLength h) ((nbits - 32) / 8))).map (tableByte v)⟩

/-- The decoder's answer on an opcode-table row's number. -/
def decodeTableWord (nbits w : Nat) : Option Instr := (decode (tableRequest nbits w)).toOption

/-- The header of format K (`30_encoding.md` R63). -/
def headerK (mode : Mode) (klen ivlen clen slen : Nat) : Word :=
  BitVec.ofNat 32 (1 * 2 ^ 28 + mode.number * 2 ^ 25 + klen * 2 ^ 18 + ivlen * 2 ^ 12 + clen * 2 ^ 6 + slen)

/-- The header of format D (`30_encoding.md` R64). -/
def headerD (dir : Dir) (last : Bool) (dlen : Nat) : Word :=
  BitVec.ofNat 32 ((match dir with | .encrypt => 2 | .decrypt => 3) * 2 ^ 28 + last.toNat * 2 ^ 27 + dlen)

/-- The header of format Z (`30_encoding.md` R65). -/
def headerZ (op : Nat) : Word := BitVec.ofNat 32 (op * 2 ^ 28)

/-- The packet of a CONSTRUCT (`30_encoding.md` R63, R66). -/
def encodeK (mode : Mode) (key iv ctr sector : Bytes) : Request :=
  .packet ⟨headerK mode key.length iv.length ctr.length sector.length, key ++ iv ++ ctr ++ sector⟩

/-- The packet of a data command (`30_encoding.md` R64). -/
def encodeD (dir : Dir) (last : Bool) (data : Bytes) : Request := .packet ⟨headerD dir last data.length, data⟩

/-- The request that carries a well-formed command (`30_encoding.md` R62 to R66, R75). -/
def encode : Instr → Request
  | .constructEcb key iv ctr sector => encodeK .ecb key iv ctr sector
  | .constructCbc key iv ctr sector => encodeK .cbc key iv ctr sector
  | .constructCfb key iv ctr sector => encodeK .cfb key iv ctr sector
  | .constructOfb key iv ctr sector => encodeK .ofb key iv ctr sector
  | .constructCtr key iv ctr sector => encodeK .ctr key iv ctr sector
  | .constructXts key iv ctr sector => encodeK .xts key iv ctr sector
  | .enc data => encodeD .encrypt false data
  | .encLast data => encodeD .encrypt true data
  | .dec data => encodeD .decrypt false data
  | .decLast data => encodeD .decrypt true data
  | .restart => .packet ⟨headerZ 4, []⟩
  | .destroy => .packet ⟨headerZ 5, []⟩
  | .sr n => .statusRead n

end Sys2Proof
end

