-- ==== Sys2Proof/Machine/State.lean ====
section
/-! DEFINITION. The state of the engine (`10_state.md` R20 to R30), what its ports have taken in and given out, the
seven errors, and the state after reset (`10_state.md` R36, `70_reset_and_hazards.md` R190). -/

namespace Sys2Proof.Machine

/-- Nothing in the spec stops the engine: an error is reported in a response and the engine is ready for the next
command at once (`60_exceptions.md` R163, R164, R173). So there is no fault, nobody raises one, and that is safe. -/
inductive Fault where
  deriving DecidableEq, Repr

/-- The reasons an instruction has no meaning. -/
inductive Refusal where
  /-- Raised by `exec`'s arm of an instruction that has no meaning yet; no arm raises it today. Safe: a run stops
  where the hardware goes on. -/
  | notModelled (mnemonic : String)
  deriving DecidableEq, Repr

/-- `PHASE`: the life cycle of the engine instance (`10_state.md` R20). -/
inductive Phase where
  | idle | ready | done
  deriving DecidableEq, Repr

/-- The values of the 2-bit register: `IDLE = 0`, `READY = 1`, `DONE = 2` (`10_state.md` R20). -/
def Phase.number : Phase → Nat
  | .idle => 0
  | .ready => 1
  | .done => 2

/-- The seven errors (`60_exceptions.md` R160). -/
inductive Error where
  | invalidKeyLength
  | invalidIVLength
  | invalidCounterLength
  | insufficientDataForXTS
  | unsupportedModeParameter
  | illegalCommand
  | invalidState
  deriving DecidableEq, Repr

/-- The response codes of the errors; 0 is `OK` (`60_exceptions.md` R160). -/
def Error.code : Error → Nat
  | .invalidKeyLength => 1
  | .invalidIVLength => 2
  | .invalidCounterLength => 3
  | .insufficientDataForXTS => 4
  | .unsupportedModeParameter => 5
  | .illegalCommand => 6
  | .invalidState => 7

/-- What the engine gives out at its ports: the response to a packet, `RW0`, `RW1` and the output bytes
(`30_encoding.md` R61), or the value of a status read (R75). -/
inductive Answer where
  | response (rw0 rw1 : Word) (out : Bytes)
  | status (value : Word)
  deriving DecidableEq, Repr

/-- What can happen at the engine between commands: a request of the host, or the hardware reset
(`70_reset_and_hazards.md` R190). -/
inductive HostEvent where
  | request (r : Request)
  | hardwareReset
  deriving DecidableEq, Repr

/-- The whole machine. The fields from `phase` to `sticky` are the registers of `10_state.md`; `prim` is the
step's parameter (R39; log entry 2); `inbox` and `outbox` are the two sides of the ports (log entry 3). -/
structure State where
  /-- The attached block primitive (`10_state.md` R39); no step writes it. -/
  prim       : Primitive
  /-- `PHASE` (`10_state.md` R20). -/
  phase      : Phase
  /-- `MODE` (`10_state.md` R21). -/
  mode       : Mode
  /-- `K1`, the data key (`10_state.md` R22). -/
  k1         : Bytes
  /-- `K2`, the tweak key (`10_state.md` R22). -/
  k2         : Bytes
  /-- `PREV` (`10_state.md` R23). -/
  prev       : Bytes
  /-- `CTR`, the cursor of the counter sequence (`10_state.md` R24). -/
  ctr        : Bytes
  /-- `TWEAK`, the cursor of the tweak sequence (`10_state.md` R25). -/
  tweak      : Bytes
  /-- `SEED_IV` (`10_state.md` R26). -/
  seedIv     : Bytes
  /-- `SEED_CTR` (`10_state.md` R26). -/
  seedCtr    : Bytes
  /-- `SEED_SECTOR` (`10_state.md` R26). -/
  seedSector : Bytes
  /-- `CARRY`, the carry buffer (`10_state.md` R27). -/
  carry      : Bytes
  /-- `POS`, the cumulative byte position (`10_state.md` R28). -/
  pos        : Nat
  /-- `BLKIDX`, the count of complete blocks processed (`10_state.md` R29). -/
  blkIdx     : Nat
  /-- `STICKY`, the error log (`10_state.md` R30). -/
  sticky     : BitVec 8
  /-- The events still to come at the ports, oldest first. -/
  inbox      : List HostEvent
  /-- What has been given out at the ports, oldest first. -/
  outbox     : List Answer
  deriving DecidableEq, Repr

/-- The state right after hardware reset with a given primitive attached (`10_state.md` R36). -/
def State.resetWith (p : Primitive) : State where
  prim := p
  phase := .idle
  mode := .ecb
  k1 := []
  k2 := []
  prev := zeros p.blockSize
  ctr := zeros p.blockSize
  tweak := zeros 16
  seedIv := zeros p.blockSize
  seedCtr := zeros p.blockSize
  seedSector := zeros 16
  carry := []
  pos := 0
  blkIdx := 0
  sticky := 0
  inbox := []
  outbox := []

/-- The machine right after reset (`10_state.md` R36, `70_reset_and_hazards.md` R190). -/
def State.reset : State := State.resetWith Config.attached

/-- `BS`, the block size in bytes (`00_scope.md` R7). -/
abbrev State.bs (s : State) : Nat := s.prim.blockSize

end Sys2Proof.Machine
end

