-- ==== Sys2Proof/Machine/Flags.lean ====
section
/-! DEFINITION. The error log `STICKY` (`10_state.md` R30, `60_exceptions.md` R164), the only flag register of the
engine, and the six status registers the host can read (`10_state.md` R31 to R33). -/

namespace Sys2Proof.Machine

/-- `STICKY | (1 << code)` (`00_scope.md` R17, `60_exceptions.md` R164). -/
def stickyWith (sticky : BitVec 8) (e : Error) : BitVec 8 := sticky ||| BitVec.ofNat 8 (2 ^ e.code)

/-- `SR[n]`: ID, STATUS, ERRLOG, CARRYLEN, POSLO, BLKLO, and 0 for a register number of 6 or more
(`10_state.md` R31 to R33). -/
def statusValue (n : Nat) (s : State) : Word :=
  match n with
  | 0 => BitVec.ofNat 32 (s.bs % 2 ^ 8)
  | 1 => BitVec.ofNat 32 (s.phase.number + s.mode.number * 2 ^ 2)
  | 2 => BitVec.ofNat 32 s.sticky.toNat
  | 3 => BitVec.ofNat 32 (s.carry.length % 2 ^ 7)
  | 4 => BitVec.ofNat 32 (s.pos % 2 ^ 32)
  | 5 => BitVec.ofNat 32 (s.blkIdx % 2 ^ 32)
  | _ => 0

end Sys2Proof.Machine
end

