-- ==== Sys2Proof/Machine/Ops.lean ====
section
/-! DEFINITION. The operations every command is made of: delivering a response, taking an error (the engine's only
exception), the carry buffer, seeding, the return of the registers to their reset values, and the hardware reset. -/

namespace Sys2Proof.Machine

/-- `respond(OK, out)`: `RW0 = 0`, `RW1 = len(out)`, then `out` (`30_encoding.md` R61, `00_scope.md` R17). -/
def State.respond (s : State) (out : Bytes) : State :=
  { s with outbox := s.outbox ++ [.response 0 (BitVec.ofNat 32 out.length) out] }

/-- `raise e`, the one way an error is taken: `STICKY` gains bit `code(e)`, the response is the code with no output,
and every other register stays as it was (`00_scope.md` R17, `60_exceptions.md` R163, R164). -/
def State.raise (s : State) (e : Error) : State :=
  { s with
    sticky := stickyWith s.sticky e
    outbox := s.outbox ++ [.response (BitVec.ofNat 32 e.code) 0 []] }

/-- `CarryAppend(d)` (`20_memory.md` R41). -/
def State.carryAppend (s : State) (d : Bytes) : State := { s with carry := s.carry ++ d }

/-- `CarryTake(n)`: the first `n` bytes of the carry buffer, and the state without them (`20_memory.md` R42). -/
def State.carryTake (s : State) (n : Nat) : Bytes × State :=
  (s.carry.take n, { s with carry := s.carry.drop n })

/-- `Seed()`: the start-of-message values, shared by CONSTRUCT and RESTART (`41_engine_commands.md` R92,
`46_xts.md` R141). -/
def State.seed (s : State) : State :=
  { s with
    prev := s.seedIv
    ctr := s.seedCtr
    tweak := if s.mode = .xts then E s.prim s.k2 s.seedSector else zeros 16
    carry := []
    pos := 0
    blkIdx := 0
    phase := .ready }

/-- Every register but `STICKY` at its reset value (`41_engine_commands.md` R101, `10_state.md` R36); what the ports
have taken in and given out is the host's and stays. -/
def State.cleared (s : State) : State :=
  { State.resetWith s.prim with sticky := s.sticky, inbox := s.inbox, outbox := s.outbox }

/-- The hardware reset: every register at its reset value, `STICKY` too, and no response
(`70_reset_and_hazards.md` R190). -/
def State.hardwareReset (s : State) : State :=
  { State.resetWith s.prim with inbox := s.inbox, outbox := s.outbox }

end Sys2Proof.Machine
end

