-- ==== Sys2Proof/Machine/Construct.lean ====
section
/-! DEFINITION. CONSTRUCT in its six modes (`41_engine_commands.md` R91). -/

namespace Sys2Proof.Machine

/-- The mode takes an initialisation vector (`60_exceptions.md` R171). -/
def takesIv : Mode → Bool
  | .cbc | .cfb | .ofb => true
  | .ecb | .ctr | .xts => false

/-- Check 1 of `41_engine_commands.md` R91 passes: the key, or each half of an XTS key, has an accepted length
(`60_exceptions.md` R165). -/
def keyAccepted (p : Primitive) (mode : Mode) (key : Bytes) : Bool :=
  if mode = .xts then key.length % 2 == 0 && p.accepts (key.length / 2) else p.accepts key.length

/-- The checks of CONSTRUCT in their order; the first that fails names the error (`41_engine_commands.md` R91,
`60_exceptions.md` R162). -/
def constructError (p : Primitive) (mode : Mode) (key iv ctr sector : Bytes) : Option Error :=
  if !keyAccepted p mode key then some .invalidKeyLength
  else if mode = .xts ∧ p.blockSize ≠ 16 then some .unsupportedModeParameter
  else if iv.length > 0 ∧ !takesIv mode then some .unsupportedModeParameter
  else if ctr.length > 0 ∧ mode ≠ .ctr then some .unsupportedModeParameter
  else if sector.length > 0 ∧ mode ≠ .xts then some .unsupportedModeParameter
  else if mode = .xts ∧ sector.length ≠ 0 ∧ sector.length ≠ 16 then some .unsupportedModeParameter
  else if takesIv mode ∧ iv.length ≠ p.blockSize then some .invalidIVLength
  else if mode = .ctr ∧ ctr.length ≠ p.blockSize then some .invalidCounterLength
  else none

/-- The operand if it has `n` bytes, `zeros(n)` if it is absent (`41_engine_commands.md` R91). -/
def orZeros (n : Nat) (operand : Bytes) : Bytes := if operand.length = n then operand else zeros n

/-- The registers a successful CONSTRUCT loads before `Seed()` (`41_engine_commands.md` R91, `46_xts.md` R148). -/
def constructLoad (mode : Mode) (key iv ctr sector : Bytes) (s : State) : State :=
  { s with
    mode := mode
    k1 := if mode = .xts then key.take (key.length / 2) else key
    k2 := if mode = .xts then key.drop (key.length / 2) else []
    seedSector := if mode = .xts then orZeros 16 sector else zeros 16
    seedIv := orZeros s.bs iv
    seedCtr := orZeros s.bs ctr }

/-- CONSTRUCT: phase, checks, effect (`41_engine_commands.md` R90, R91). -/
def construct (mode : Mode) (key iv ctr sector : Bytes) (s : State) : State :=
  if s.phase = .idle then
    match constructError s.prim mode key iv ctr sector with
    | some e => s.raise e
    | none => ((constructLoad mode key iv ctr sector s).seed).respond []
  else s.raise .invalidState

/-- `CONSTRUCT.ECB` (`41_engine_commands.md` R91). -/
def execConstructEcb (key iv ctr sector : Bytes) (s : State) : Host.Outcome State Fault Refusal :=
  .next (construct .ecb key iv ctr sector s)

/-- `CONSTRUCT.CBC` (`41_engine_commands.md` R91). -/
def execConstructCbc (key iv ctr sector : Bytes) (s : State) : Host.Outcome State Fault Refusal :=
  .next (construct .cbc key iv ctr sector s)

/-- `CONSTRUCT.CFB` (`41_engine_commands.md` R91). -/
def execConstructCfb (key iv ctr sector : Bytes) (s : State) : Host.Outcome State Fault Refusal :=
  .next (construct .cfb key iv ctr sector s)

/-- `CONSTRUCT.OFB` (`41_engine_commands.md` R91). -/
def execConstructOfb (key iv ctr sector : Bytes) (s : State) : Host.Outcome State Fault Refusal :=
  .next (construct .ofb key iv ctr sector s)

/-- `CONSTRUCT.CTR` (`41_engine_commands.md` R91). -/
def execConstructCtr (key iv ctr sector : Bytes) (s : State) : Host.Outcome State Fault Refusal :=
  .next (construct .ctr key iv ctr sector s)

/-- `CONSTRUCT.XTS` (`41_engine_commands.md` R91). -/
def execConstructXts (key iv ctr sector : Bytes) (s : State) : Host.Outcome State Fault Refusal :=
  .next (construct .xts key iv ctr sector s)

end Sys2Proof.Machine
end

