-- ==== Sys2Proof/Machine/Control.lean ====
section
/-! DEFINITION. RESTART, DESTROY and the status read (`41_engine_commands.md` R100, R101; `30_encoding.md` R75). -/

namespace Sys2Proof.Machine

/-- `RESTART`: legal in READY and DONE; `Seed()` (`41_engine_commands.md` R100). -/
def execRestart (s : State) : Host.Outcome State Fault Refusal :=
  .next (if s.phase = .idle then s.raise .invalidState else s.seed.respond [])

/-- `DESTROY`: legal in every phase; every register but `STICKY` takes its reset value
(`41_engine_commands.md` R101). -/
def execDestroy (s : State) : Host.Outcome State Fault Refusal := .next (s.cleared.respond [])

/-- `SR n`, the status read: the value is given out and nothing changes (`30_encoding.md` R75, `10_state.md` R31). -/
def execSr (n : Nat) (s : State) : Host.Outcome State Fault Refusal :=
  .next { s with outbox := s.outbox ++ [.status (statusValue n s)] }

end Sys2Proof.Machine
end

