-- ==== Sys2Proof/Machine/Cbc.lean ====
section
/-! DEFINITION. The CBC block operations (`43_cbc.md`). -/

namespace Sys2Proof.Machine

/-- `CbcEnc(x)` (`43_cbc.md` R115). -/
def cbcEnc (x : Bytes) (s : State) : Bytes × State :=
  let y := E s.prim s.k1 (xorB x s.prev)
  (y, { s with prev := y })

/-- `CbcDec(x)`: the old `PREV` is used for the xor, the input block is kept (`43_cbc.md` R116). -/
def cbcDec (x : Bytes) (s : State) : Bytes × State :=
  (xorB (D s.prim s.k1 x) s.prev, { s with prev := x })

end Sys2Proof.Machine
end

