-- ==== Sys2Proof/Machine/CfbOfb.lean ====
section
/-! DEFINITION. The CFB and OFB block operations and final fragments (`44_cfb_ofb.md`). -/

namespace Sys2Proof.Machine

/-- `CfbEnc(x)` (`44_cfb_ofb.md` R120). -/
def cfbEnc (x : Bytes) (s : State) : Bytes × State :=
  let y := xorB (E s.prim s.k1 s.prev) x
  (y, { s with prev := y })

/-- `CfbDec(x)`: `PREV` takes the input block (`44_cfb_ofb.md` R121). -/
def cfbDec (x : Bytes) (s : State) : Bytes × State :=
  (xorB (E s.prim s.k1 s.prev) x, { s with prev := x })

/-- `CfbTail(dir, x)`, the same in both directions; `PREV` is not written (`44_cfb_ofb.md` R123). -/
def cfbTail (x : Bytes) (s : State) : Bytes × State :=
  (xorB ((E s.prim s.k1 s.prev).take x.length) x, s)

/-- `OfbBlk(x)`, the same in both directions (`44_cfb_ofb.md` R122). -/
def ofbBlk (x : Bytes) (s : State) : Bytes × State :=
  let ks := E s.prim s.k1 s.prev
  (xorB x ks, { s with prev := ks })

/-- `OfbTail(x)`: `PREV` takes the whole keystream block (`44_cfb_ofb.md` R124). -/
def ofbTail (x : Bytes) (s : State) : Bytes × State :=
  let ks := E s.prim s.k1 s.prev
  (xorB (ks.take x.length) x, { s with prev := ks })

end Sys2Proof.Machine
end

