-- ==== Sys2Proof/Machine/Ctr.lean ====
section
/-! DEFINITION. The CTR block operation and final fragment (`45_ctr.md`). -/

namespace Sys2Proof.Machine

/-- `CtrBlk(x)`: the keystream block is computed from `CTR` before the increment (`45_ctr.md` R133). -/
def ctrBlk (x : Bytes) (s : State) : Bytes × State :=
  (xorB x (E s.prim s.k1 s.ctr), { s with ctr := inc s.ctr })

/-- `CtrTail(x)`: the keystream block is truncated, one counter value is consumed (`45_ctr.md` R134). -/
def ctrTail (x : Bytes) (s : State) : Bytes × State :=
  (xorB ((E s.prim s.k1 s.ctr).take x.length) x, { s with ctr := inc s.ctr })

end Sys2Proof.Machine
end

