-- ==== Sys2Proof/Machine/Ecb.lean ====
section
/-! DEFINITION. The ECB block operations (`42_ecb.md`). -/

namespace Sys2Proof.Machine

/-- `EcbEnc(x)` (`42_ecb.md` R110). -/
def ecbEnc (x : Bytes) (s : State) : Bytes × State := (E s.prim s.k1 x, s)

/-- `EcbDec(x)` (`42_ecb.md` R111). -/
def ecbDec (x : Bytes) (s : State) : Bytes × State := (D s.prim s.k1 x, s)

end Sys2Proof.Machine
end

