-- ==== Sys2Proof/Machine/Xts.lean ====
section
/-! DEFINITION. The XTS block operations and ciphertext stealing (`46_xts.md`). -/

namespace Sys2Proof.Machine

/-- `E(K1, x xor t) xor t` (`46_xts.md` R143). -/
def xtsBlockEnc (s : State) (t x : Bytes) : Bytes := xorB (E s.prim s.k1 (xorB x t)) t

/-- `D(K1, x xor t) xor t` (`46_xts.md` R144). -/
def xtsBlockDec (s : State) (t x : Bytes) : Bytes := xorB (D s.prim s.k1 (xorB x t)) t

/-- `XtsEnc(x)`: the tweak is used before it is advanced (`46_xts.md` R143). -/
def xtsEnc (x : Bytes) (s : State) : Bytes × State :=
  (xtsBlockEnc s s.tweak x, { s with tweak := mulAlpha s.tweak })

/-- `XtsDec(x)` (`46_xts.md` R144). -/
def xtsDec (x : Bytes) (s : State) : Bytes × State :=
  (xtsBlockDec s s.tweak x, { s with tweak := mulAlpha s.tweak })

/-- What ciphertext stealing writes: `TWEAK` advanced twice, `BLKIDX` increased once (`46_xts.md` R145, R146). -/
def xtsStealState (s : State) : State :=
  { s with tweak := mulAlpha (mulAlpha s.tweak), blkIdx := s.blkIdx + 1 }

/-- `XtsSteal(encrypt, x)`: `x` is the last complete block and the fragment after it (`46_xts.md` R145). -/
def xtsStealEnc (x : Bytes) (s : State) : Bytes × State :=
  let n := x.length - 16
  let t0 := s.tweak
  let t1 := mulAlpha t0
  let cc := xtsBlockEnc s t0 (x.take 16)
  let pp := x.drop 16 ++ cc.drop n
  let ca := xtsBlockEnc s t1 pp
  (ca ++ cc.take n, xtsStealState s)

/-- `XtsSteal(decrypt, x)`: the later tweak first (`46_xts.md` R146). -/
def xtsStealDec (x : Bytes) (s : State) : Bytes × State :=
  let n := x.length - 16
  let t0 := s.tweak
  let t1 := mulAlpha t0
  let pp := xtsBlockDec s t1 (x.take 16)
  let cc := x.drop 16 ++ pp.drop n
  let pa := xtsBlockDec s t0 cc
  (pa ++ pp.take n, xtsStealState s)

/-- `XtsSteal(dir, x)` (`46_xts.md` R145, R146). -/
def xtsSteal : Dir → Bytes → State → Bytes × State
  | .encrypt => xtsStealEnc
  | .decrypt => xtsStealDec

end Sys2Proof.Machine
end

