-- ==== Sys2Proof/Machine/Stream.lean ====
section
/-! DEFINITION. The mode-select chaining arbiter `BlockOp` (`41_engine_commands.md` R98), and the streaming machine
`Consume` and `Flush` (R94 to R96). -/

namespace Sys2Proof.Machine

/-- The block operation of the mode and direction (`41_engine_commands.md` R98). -/
def modeBlock (dir : Dir) (x : Bytes) (s : State) : Bytes × State :=
  match s.mode, dir with
  | .ecb, .encrypt => ecbEnc x s
  | .ecb, .decrypt => ecbDec x s
  | .cbc, .encrypt => cbcEnc x s
  | .cbc, .decrypt => cbcDec x s
  | .cfb, .encrypt => cfbEnc x s
  | .cfb, .decrypt => cfbDec x s
  | .ofb, _ => ofbBlk x s
  | .ctr, _ => ctrBlk x s
  | .xts, .encrypt => xtsEnc x s
  | .xts, .decrypt => xtsDec x s

/-- `BlockOp(dir, x)` (`41_engine_commands.md` R98). -/
def blockOp (dir : Dir) (x : Bytes) (s : State) : Bytes × State :=
  let r := modeBlock dir x s
  (r.1, { r.2 with blkIdx := r.2.blkIdx + 1 })

/-- How many bytes the carry buffer must hold before `Consume` takes a block: the XTS hold-back keeps the most recent
complete block (`41_engine_commands.md` R94, R95). -/
def State.hold (s : State) : Nat := if s.mode = .xts then 2 * s.bs else s.bs

/-- At most `fuel` turns of the loop of `Consume` (`41_engine_commands.md` R94). -/
def consumeLoop (dir : Dir) : Nat → State → Bytes × State
  | 0, s => ([], s)
  | fuel + 1, s =>
    if s.hold ≤ s.carry.length then
      let taken := s.carryTake s.bs
      let block := blockOp dir taken.1 taken.2
      let rest := consumeLoop dir fuel block.2
      (block.1 ++ rest.1, rest.2)
    else ([], s)

/-- `Consume(dir)` (`41_engine_commands.md` R94). A turn takes `BS >= 1` bytes, so as many turns as the buffer has
bytes are enough (`70_reset_and_hazards.md` R203). -/
def consume (dir : Dir) (s : State) : Bytes × State := consumeLoop dir s.carry.length s

/-- The fragment in the carry buffer goes to a tail operation, unless there is none (`41_engine_commands.md` R96). -/
def flushTail (tail : Bytes → State → Bytes × State) (s : State) : Bytes × State :=
  if s.carry.length = 0 then ([], s)
  else
    let taken := s.carryTake s.carry.length
    tail taken.1 taken.2

/-- `Flush(dir)`, the end-of-message step (`41_engine_commands.md` R96). -/
def flush (dir : Dir) (s : State) : Bytes × State :=
  match s.mode with
  | .ecb => ([], s)
  | .cbc => ([], s)
  | .cfb => flushTail cfbTail s
  | .ofb => flushTail ofbTail s
  | .ctr => flushTail ctrTail s
  | .xts =>
    let taken := s.carryTake s.carry.length
    if s.carry.length = s.bs then blockOp dir taken.1 taken.2
    else xtsSteal dir taken.1 taken.2

end Sys2Proof.Machine
end

