-- ==== Sys2Proof/Machine/Data.lean ====
section
/-! DEFINITION. The data commands ENC, ENC.L, DEC, DEC.L (`41_engine_commands.md` R93, R99). -/

namespace Sys2Proof.Machine

/-- Steps 2 to 4 of `Data(dir, last, data)`, the effect of an accepted data command before its response
(`41_engine_commands.md` R93): the output and the state. -/
def dataEffect (dir : Dir) (last : Bool) (data : Bytes) (s : State) : Bytes × State :=
  let appended := { s.carryAppend data with pos := s.pos + data.length }
  let body := consume dir appended
  if last then
    let tail := flush dir body.2
    (body.1 ++ tail.1, { tail.2 with phase := .done })
  else body

/-- `Data(dir, last, data)` after the phase check of R90 (`41_engine_commands.md` R93). -/
def dataCommand (dir : Dir) (last : Bool) (data : Bytes) (s : State) : State :=
  if s.phase = .ready then
    if s.mode = .xts ∧ last = true ∧ s.pos + data.length < s.bs then s.raise .insufficientDataForXTS
    else
      let r := dataEffect dir last data s
      r.2.respond r.1
  else s.raise .invalidState

/-- `ENC` (`41_engine_commands.md` R93). -/
def execEnc (data : Bytes) (s : State) : Host.Outcome State Fault Refusal :=
  .next (dataCommand .encrypt false data s)

/-- `ENC.L` (`41_engine_commands.md` R93). -/
def execEncLast (data : Bytes) (s : State) : Host.Outcome State Fault Refusal :=
  .next (dataCommand .encrypt true data s)

/-- `DEC` (`41_engine_commands.md` R99). -/
def execDec (data : Bytes) (s : State) : Host.Outcome State Fault Refusal :=
  .next (dataCommand .decrypt false data s)

/-- `DEC.L` (`41_engine_commands.md` R99). -/
def execDecLast (data : Bytes) (s : State) : Host.Outcome State Fault Refusal :=
  .next (dataCommand .decrypt true data s)

end Sys2Proof.Machine
end

