-- ==== Sys2Proof/Machine/Dispatch.lean ====
section
/-! DEFINITION. One arm per command of `spec/opcode_table.json`. -/

namespace Sys2Proof.Machine

-- What each command does; a packet is decoded in `step`.
def exec (i : Instr) (s : State) : Host.Outcome State Fault Refusal :=
  match i with
  | .constructEcb key iv ctr sector => Sys2Proof.Machine.execConstructEcb key iv ctr sector s
  | .constructCbc key iv ctr sector => Sys2Proof.Machine.execConstructCbc key iv ctr sector s
  | .constructCfb key iv ctr sector => Sys2Proof.Machine.execConstructCfb key iv ctr sector s
  | .constructOfb key iv ctr sector => Sys2Proof.Machine.execConstructOfb key iv ctr sector s
  | .constructCtr key iv ctr sector => Sys2Proof.Machine.execConstructCtr key iv ctr sector s
  | .constructXts key iv ctr sector => Sys2Proof.Machine.execConstructXts key iv ctr sector s
  | .enc data => Sys2Proof.Machine.execEnc data s
  | .encLast data => Sys2Proof.Machine.execEncLast data s
  | .dec data => Sys2Proof.Machine.execDec data s
  | .decLast data => Sys2Proof.Machine.execDecLast data s
  | .restart => Sys2Proof.Machine.execRestart s
  | .destroy => Sys2Proof.Machine.execDestroy s
  | .sr n => Sys2Proof.Machine.execSr n s

end Sys2Proof.Machine
end

