-- ==== Sys2Proof/Machine/Step.lean ====
section
/-! DEFINITION. One step: the next event at the engine's ports (`20_memory.md` R47, R51; `41_engine_commands.md` R90). -/

namespace Sys2Proof.Machine

/-- The next event is taken from the inbox. A request is decoded and its command executed; a packet that is `Illegal`
raises `IllegalCommand` (`41_engine_commands.md` R90 step 1, `60_exceptions.md` R168); a hardware reset resets
(`70_reset_and_hazards.md` R190); with no event the engine waits and nothing changes (`60_exceptions.md` R161, R179). -/
def step (s : State) : Host.Outcome State Fault Refusal :=
  match s.inbox with
  | [] => .next s
  | .hardwareReset :: rest => .next { s with inbox := rest }.hardwareReset
  | .request r :: rest =>
    match decode r with
    | .ok i => exec i { s with inbox := rest }
    | .error _ => .next ({ s with inbox := rest }.raise .illegalCommand)

/-- `s` with the request that an opcode-table row's number stands for as the next event at its ports. -/
def State.withFetchWord (s : State) (nbits w : Nat) : State :=
  { s with inbox := .request (tableRequest nbits w) :: s.inbox }

end Sys2Proof.Machine
end

