-- ==== Sys2Proof/Safety.lean ====
section
/-! DEFINITION. The words claims are made in: the invariant the spec gives the state between commands
(`10_state.md` R27, R29, R35, R37), the values of the counter and tweak sequences (`45_ctr.md` R131, `46_xts.md`
R147), the spec's own second forms of `inc` and `mul_alpha`, the blocks of a stream and the chains over them, and
sequences of commands with what they give out. -/

namespace Sys2Proof.Machine

/-- What holds of the engine between commands: `10_state.md` R35, with the bounds of R22, R27, R29 and R30 and the
zeros of R23 to R25 and R37. -/
structure State.Inv (s : State) : Prop where
  /-- The parameters are within their ranges (`00_scope.md` R7, R9). -/
  admissible : s.prim.Admissible
  /-- R35 (b): in IDLE every register but `STICKY` has its reset value. -/
  idle_reset : s.phase = .idle → s.cleared = s
  /-- R35 (c). -/
  len_prev : s.prev.length = s.bs
  len_ctr : s.ctr.length = s.bs
  len_tweak : s.tweak.length = 16
  len_seedIv : s.seedIv.length = s.bs
  len_seedCtr : s.seedCtr.length = s.bs
  len_seedSector : s.seedSector.length = 16
  /-- R35 (d), R27: the bound outside XTS. -/
  carry_lt : s.mode ≠ .xts → s.carry.length < s.bs
  /-- R35 (d), R27: the bound in XTS. -/
  carry_xts : s.mode = .xts → s.carry.length < 2 * s.bs
  /-- R27: the XTS hold-back. -/
  carry_held : s.mode = .xts → s.phase = .ready → s.bs ≤ s.pos → s.bs ≤ s.carry.length
  /-- R35 (e). -/
  key_accepted : s.phase ≠ .idle → s.prim.accepts s.k1.length = true
  key_xts : s.phase ≠ .idle → s.mode = .xts → s.k2.length = s.k1.length ∧ s.bs = 16
  key_other : s.mode ≠ .xts → s.k2 = []
  /-- R22: the widths of the key registers. -/
  k1_le : s.k1.length ≤ 127
  k2_le : s.k2.length ≤ 63
  /-- R35 (f). -/
  done_carry : s.phase = .done → s.mode ≠ .ecb → s.mode ≠ .cbc → s.carry = []
  /-- R29: the position is the blocks processed and the bytes that wait. -/
  position : s.phase = .ready → s.pos = s.blkIdx * s.bs + s.carry.length
  /-- R30: bit 0 is always 0. -/
  sticky_zero : s.sticky.getLsbD 0 = false
  /-- R37, R23 to R26: the registers the mode does not use hold zeros. -/
  unused_prev : takesIv s.mode = false → s.prev = zeros s.bs ∧ s.seedIv = zeros s.bs
  unused_ctr : s.mode ≠ .ctr → s.ctr = zeros s.bs ∧ s.seedCtr = zeros s.bs
  unused_tweak : s.mode ≠ .xts → s.tweak = zeros 16 ∧ s.seedSector = zeros 16

/-- `counter_i` of the sequence seeded with `seed` (`45_ctr.md` R131). -/
def counterAt (seed : Bytes) (i : Nat) : Bytes :=
  beBytes ((beInt seed + i) % 2 ^ (8 * seed.length)) seed.length

/-- `T_j` of the sequence that begins with `t0` (`46_xts.md` R147). -/
def tweakAt (t0 : Bytes) (j : Nat) : Bytes := mulAlpha^[j] t0

/-- How many blocks cover `n` bytes: `ceil(n / bs)`. -/
def blocksCovering (bs n : Nat) : Nat := (n + bs - 1) / bs

/-- The cursors stand where the consumed stream puts them (`45_ctr.md` R131, R137, `46_xts.md` R147): after a whole
message one counter value, or tweak, is used for a final fragment too. -/
structure State.CursorInv (s : State) : Prop where
  ctr_ready : s.mode = .ctr → s.phase = .ready → s.ctr = counterAt s.seedCtr s.blkIdx
  ctr_done : s.mode = .ctr → s.phase = .done → s.ctr = counterAt s.seedCtr (blocksCovering s.bs s.pos)
  tweak_ready : s.mode = .xts → s.phase = .ready → s.tweak = tweakAt (E s.prim s.k2 s.seedSector) s.blkIdx
  tweak_done : s.mode = .xts → s.phase = .done →
    s.tweak = tweakAt (E s.prim s.k2 s.seedSector) (blocksCovering s.bs s.pos)

/-- The loop of the byte form of `inc` (`45_ctr.md` R132), the bytes in the order it takes them, the last of the
block first: `0xff` becomes 0 and the loop goes on; the first other byte is increased and the loop ends. -/
def incRipple : Bytes → Bytes
  | [] => []
  | b :: rest => if b = 0xff then 0 :: incRipple rest else (b + 1) :: rest

/-- The byte form of `inc` (`45_ctr.md` R132). -/
def incBytes (c : Bytes) : Bytes := (incRipple c.reverse).reverse

/-- The loop of the byte form of `mul_alpha` (`46_xts.md` R142): shift each byte left, bring in the bit from the byte
before; the last bit that moves out is the result's second part. -/
def shiftBytes : Bytes → Nat → Bytes × Nat
  | [], c => ([], c)
  | b :: rest, c =>
    let r := shiftBytes rest (b.toNat / 128)
    (BitVec.ofNat 8 (b.toNat * 2 % 256 + c) :: r.1, r.2)

/-- The byte form of `mul_alpha` (`46_xts.md` R142). -/
def mulAlphaBytes (t : Bytes) : Bytes :=
  let r := shiftBytes t 0
  if r.2 = 1 then
    match r.1 with
    | [] => []
    | b :: rest => (b ^^^ 0x87) :: rest
  else r.1

/-- The block function of a direction: `E` to encrypt, `D` to decrypt (`42_ecb.md` R110, R111, `46_xts.md` R143,
R144). -/
def blockFunction : Dir → Primitive → Bytes → Bytes → Bytes
  | .encrypt => E
  | .decrypt => D

/-- A block under a tweak: `E(K1, x xor t) xor t`, or the same with `D` (`46_xts.md` R143, R144). -/
def xtsFunction (dir : Dir) (p : Primitive) (k t x : Bytes) : Bytes := xorB (blockFunction dir p k (xorB x t)) t

/-- Block `j` of a stream, from 0: bytes `j*bs` to `j*bs + bs - 1` (`00_scope.md` R18). -/
def blockAt (bs : Nat) (m : Bytes) (j : Nat) : Bytes := (m.drop (j * bs)).take bs

/-- The blocks `f 0` to `f (n-1)`, one after another (`20_memory.md` R43). -/
def blocksOut (n : Nat) (f : Nat → Bytes) : Bytes := (List.range n).flatMap f

/-- CBC: `C_0 = PREV`, `C_(j+1) = E(K1, P_j xor C_j)` over the blocks `P_j` of `m` (`43_cbc.md` R115). -/
def cbcCipher (p : Primitive) (k prev m : Bytes) : Nat → Bytes
  | 0 => prev
  | j + 1 => E p k (xorB (blockAt p.blockSize m j) (cbcCipher p k prev m j))

/-- CFB: `C_0 = PREV`, `C_(j+1) = E(K1, C_j) xor P_j` over the blocks `P_j` of `m` (`44_cfb_ofb.md` R120). -/
def cfbCipher (p : Primitive) (k prev m : Bytes) : Nat → Bytes
  | 0 => prev
  | j + 1 => xorB (E p k (cfbCipher p k prev m j)) (blockAt p.blockSize m j)

/-- The ciphertext blocks of a stream being decrypted, with `PREV` before the first: what CBC and CFB decryption
find in `PREV` (`43_cbc.md` R116, `44_cfb_ofb.md` R121). -/
def feedback (bs : Nat) (prev m : Bytes) : Nat → Bytes
  | 0 => prev
  | j + 1 => blockAt bs m j

/-- The keystream block after `j` evaluations: `E` applied `j` times to `PREV` (`44_cfb_ofb.md` R122, R126). -/
def ofbStream (p : Primitive) (k prev : Bytes) (j : Nat) : Bytes := (E p k)^[j] prev

/-- What an answer gives out in bytes (`30_encoding.md` R61); a status value has none. -/
def Answer.out : Answer → Bytes
  | .response _ _ out => out
  | .status _ => []

/-- `OK` with `out` (`30_encoding.md` R61, `60_exceptions.md` R160). -/
def okAnswer (out : Bytes) : Answer := .response 0 (BitVec.ofNat 32 out.length) out

/-- The response of an error: the code and no output (`60_exceptions.md` R164). -/
def errorAnswer (code : Nat) : Answer := .response (BitVec.ofNat 32 code) 0 []

/-- The commands executed one after another (`20_memory.md` R51). -/
def issue : List Instr → State → Host.Outcome State Fault Refusal
  | [], s => .next s
  | i :: rest, s =>
    match exec i s with
    | .next t => issue rest t
    | .fault f => .fault f
    | .refused r => .refused r

/-- `k` steps of the engine (`20_memory.md` R47, R51). -/
def run : Nat → State → Host.Outcome State Fault Refusal
  | 0, s => .next s
  | k + 1, s =>
    match step s with
    | .next t => run k t
    | .fault f => .fault f
    | .refused r => .refused r

/-- A message in pieces: data commands without LAST, then one with LAST (`41_engine_commands.md` R102). -/
def message (dir : Dir) (pieces : List Bytes) (final : Bytes) : List Instr :=
  pieces.map (dataInstr dir false) ++ [dataInstr dir true final]

/-- A message length the mode can process whole (`41_engine_commands.md` R105, `70_reset_and_hazards.md` R198). -/
def compatible (mode : Mode) (bs n : Nat) : Prop :=
  match mode with
  | .ecb | .cbc => n % bs = 0
  | .cfb | .ofb | .ctr => True
  | .xts => bs ≤ n

/-- The answer with its output bytes blotted out: what it tells besides the bytes. -/
def Answer.shape : Answer → Answer
  | .response rw0 rw1 out => .response rw0 rw1 (zeros out.length)
  | .status v => .status v

/-- Two states that agree on all a host may know, and may differ in the keys, the chaining state, the seeds and the
buffered bytes (`10_state.md` R34). -/
structure PublicEq (s t : State) : Prop where
  prim : s.prim = t.prim
  phase : s.phase = t.phase
  mode : s.mode = t.mode
  carry : s.carry.length = t.carry.length
  pos : s.pos = t.pos
  blkIdx : s.blkIdx = t.blkIdx
  sticky : s.sticky = t.sticky
  inbox : s.inbox = t.inbox
  outbox : s.outbox.map Answer.shape = t.outbox.map Answer.shape

/-- The `match` and `mask` of a command's row; the status read has none (`30_encoding.md` R68). -/
def opcodeRow : Instr → Option (Word × Word)
  | .constructEcb _ _ _ _ => some (0x10000000, 0xFE000000)
  | .constructCbc _ _ _ _ => some (0x12000000, 0xFE000000)
  | .constructCfb _ _ _ _ => some (0x14000000, 0xFE000000)
  | .constructOfb _ _ _ _ => some (0x16000000, 0xFE000000)
  | .constructCtr _ _ _ _ => some (0x18000000, 0xFE000000)
  | .constructXts _ _ _ _ => some (0x1A000000, 0xFE000000)
  | .enc _ => some (0x20000000, 0xFF000000)
  | .encLast _ => some (0x28000000, 0xFF000000)
  | .dec _ => some (0x30000000, 0xFF000000)
  | .decLast _ => some (0x38000000, 0xFF000000)
  | .restart => some (0x40000000, 0xFFFFFFFF)
  | .destroy => some (0x50000000, 0xFFFFFFFF)
  | .sr _ => none

/-- The packets of `30_encoding.md` R70. -/
def IllegalPacket (p : Packet) : Prop :=
  field 31 28 p.header = 0 ∨ 6 ≤ field 31 28 p.header ∨
  (field 31 28 p.header = 1 ∧ 6 ≤ field 27 25 p.header) ∨
  ((field 31 28 p.header = 2 ∨ field 31 28 p.header = 3) ∧ field 26 24 p.header ≠ 0) ∨
  ((field 31 28 p.header = 4 ∨ field 31 28 p.header = 5) ∧ field 27 0 p.header ≠ 0) ∨
  p.payload.length ≠ declaredLength p.header

/-- An operand the mode does not take, a malformed sector block, or XTS over blocks of another size than 16: the
matrix of `60_exceptions.md` R171. -/
def OperandUnsupported (bs : Nat) (mode : Mode) (iv ctr sector : Bytes) : Prop :=
  match mode with
  | .ecb => iv ≠ [] ∨ ctr ≠ [] ∨ sector ≠ []
  | .cbc | .cfb | .ofb => ctr ≠ [] ∨ sector ≠ []
  | .ctr => iv ≠ [] ∨ sector ≠ []
  | .xts => iv ≠ [] ∨ ctr ≠ [] ∨ (sector ≠ [] ∧ sector.length ≠ 16) ∨ bs ≠ 16

/-- The key, or each half of an XTS key, has a length in `KEYSIZES` (`60_exceptions.md` R165). -/
def KeyLengthAccepted (p : Primitive) (mode : Mode) (key : Bytes) : Prop :=
  match mode with
  | .xts => key.length % 2 = 0 ∧ p.accepts (key.length / 2) = true
  | _ => p.accepts key.length = true

/-- The mode requires an IV and the operand is not `BS` bytes (`60_exceptions.md` R166). -/
def IvLengthWrong (bs : Nat) (mode : Mode) (iv : Bytes) : Prop :=
  match mode with
  | .cbc | .cfb | .ofb => iv.length ≠ bs
  | _ => False

/-- The mode requires an initial counter and the operand is not `BS` bytes (`60_exceptions.md` R167). -/
def CounterLengthWrong (bs : Nat) (mode : Mode) (ctr : Bytes) : Prop :=
  match mode with
  | .ctr => ctr.length ≠ bs
  | _ => False

/-- All the checks of CONSTRUCT pass (`41_engine_commands.md` R91). -/
def ConstructAccepted (p : Primitive) (mode : Mode) (key iv ctr sector : Bytes) : Prop :=
  KeyLengthAccepted p mode key ∧ ¬ OperandUnsupported p.blockSize mode iv ctr sector ∧
  ¬ IvLengthWrong p.blockSize mode iv ∧ ¬ CounterLengthWrong p.blockSize mode ctr

/-- What has been given out in bytes since the outbox was `before` (`41_engine_commands.md` R102, R103). -/
def outputSince (before : List Answer) (t : State) : Bytes := (t.outbox.drop before.length).flatMap Answer.out

/-- The state that raising error `code` leaves: `STICKY` and the response, nothing else (`60_exceptions.md` R163,
R164). -/
def State.errored (s : State) (code : Nat) : State :=
  { s with sticky := s.sticky ||| BitVec.ofNat 8 (2 ^ code), outbox := s.outbox ++ [errorAnswer code] }

end Sys2Proof.Machine
end

