-- ==== Sys2Proof/Certificates/Slice0/Obligations.lean ====
section
/-! DEFINITION. The statements for the provers, from the numbered rules of `spec/`. -/

open Sys2Proof Sys2Proof.Machine

/-! Encoding and decoding -/

/-- Every well-formed command survives encoding: with every operand at every value its field admits
(`30_encoding.md` R62 to R66, R69, R75). -/
def Obligations.DecodeOfEncodeIsTheCommand : Prop :=
  ∀ i : Instr, WellFormed i = true → decode (encode i) = .ok i

/-- A request that decodes is the encoding of the command it decodes to, which is well-formed: no two requests share a
command, no bit of a header is ignored (`30_encoding.md` R69, R70). -/
def Obligations.EncodeOfDecodeIsTheRequest : Prop :=
  ∀ (r : Request) (i : Instr), decode r = .ok i → WellFormed i = true ∧ encode i = r

/-- `30_encoding.md` R63 to R66, bit by bit and by `BitVec.extractLsb`, which the decoder does not use: in each format,
a packet whose must-be-zero bits are zero and whose payload has the declared length is the command of its fields. -/
def Obligations.FormatsAreReadBitByBit : Prop :=
  ∀ (h : Word) (payload : Bytes),
    (∀ mode : Mode, h.extractLsb 31 28 = 1#4 → (h.extractLsb 27 25).toNat = mode.number →
      payload.length = (h.extractLsb 24 18).toNat + (h.extractLsb 17 12).toNat + (h.extractLsb 11 6).toNat +
        (h.extractLsb 5 0).toNat →
      ∃ key iv ctr sector, payload = key ++ (iv ++ (ctr ++ sector)) ∧
        key.length = (h.extractLsb 24 18).toNat ∧ iv.length = (h.extractLsb 17 12).toNat ∧
        ctr.length = (h.extractLsb 11 6).toNat ∧ sector.length = (h.extractLsb 5 0).toNat ∧
        decode (.packet ⟨h, payload⟩) = .ok (constructInstr mode key iv ctr sector)) ∧
    (∀ dir : Dir, h.extractLsb 31 28 = (match dir with | .encrypt => 2#4 | .decrypt => 3#4) →
      h.extractLsb 26 24 = 0#3 → payload.length = (h.extractLsb 23 0).toNat →
      decode (.packet ⟨h, payload⟩) = .ok (dataInstr dir (h.getLsbD 27) payload)) ∧
    (h.extractLsb 27 0 = 0#28 → payload = [] →
      (h.extractLsb 31 28 = 4#4 → decode (.packet ⟨h, payload⟩) = .ok .restart) ∧
      (h.extractLsb 31 28 = 5#4 → decode (.packet ⟨h, payload⟩) = .ok .destroy))

/-- `30_encoding.md` R70, `60_exceptions.md` R168: the packets that decode to nothing are exactly the listed ones, and
a step on one raises `IllegalCommand`, in every phase, and changes nothing else. -/
def Obligations.IllegalPacketsRaiseIllegalCommand : Prop :=
  ∀ (s : State) (p : Packet) (rest : List HostEvent), s.inbox = .request (.packet p) :: rest →
    ((∃ i, decode (.packet p) = .ok i) ↔ ¬ IllegalPacket p) ∧
    (IllegalPacket p → step s = .next ({ s with inbox := rest }.errored 6))

/-- `30_encoding.md` R68: the twelve rows' `match` and `mask` select exactly the headers of the row's command; the
rest is the declared payload length. -/
def Obligations.OpcodeRowsSelectTheirCommands : Prop :=
  ∀ (h : Word) (payload : Bytes) (i : Instr),
    (decode (.packet ⟨h, payload⟩) = .ok i → ∃ row, opcodeRow i = some row ∧ h &&& row.2 = row.1) ∧
    (∀ row, opcodeRow i = some row → h &&& row.2 = row.1 → payload.length = declaredLength h →
      ∃ j, decode (.packet ⟨h, payload⟩) = .ok j ∧ opcodeRow j = some row)

/-- Headers written out from `30_encoding.md` section 9, and what they decode to: sanity. -/
def Obligations.WorkedHeadersDecode : Prop :=
  decode (.packet ⟨0x12410000, zeros 16 ++ List.replicate 16 1⟩) =
    .ok (.constructCbc (zeros 16) (List.replicate 16 1) [] []) ∧
  decode (.packet ⟨0x18400400, zeros 16 ++ List.replicate 16 1⟩) =
    .ok (.constructCtr (zeros 16) [] (List.replicate 16 1) []) ∧
  decode (.packet ⟨0x1A800000, zeros 32⟩) = .ok (.constructXts (zeros 32) [] [] []) ∧
  decode (.packet ⟨0x10200000, zeros 8⟩) = .ok (.constructEcb (zeros 8) [] [] []) ∧
  decode (.packet ⟨0x20000030, zeros 48⟩) = .ok (.enc (zeros 48)) ∧
  decode (.packet ⟨0x28000030, zeros 48⟩) = .ok (.encLast (zeros 48)) ∧
  decode (.packet ⟨0x38000005, zeros 5⟩) = .ok (.decLast (zeros 5)) ∧
  decode (.packet ⟨0x40000000, []⟩) = .ok .restart ∧
  decode (.packet ⟨0x50000000, []⟩) = .ok .destroy

/-! Steps and reset -/

/-- A step executes the command that the next request decodes to, on the state without that request, and adds nothing;
with nothing presented it changes nothing (`20_memory.md` R47, R51; `60_exceptions.md` R161, R179). That the events stand
in an inbox is the model's choice (log entry 3). -/
def Obligations.StepExecutesTheDecodedCommand : Prop :=
  ∀ s : State,
    (∀ r rest i, s.inbox = .request r :: rest → decode r = .ok i → step s = exec i { s with inbox := rest }) ∧
    (s.inbox = [] → step s = .next s)

/-- Every command completes: a step always answers a next state, and it never changes the attached primitive
(`70_reset_and_hazards.md` R203, `60_exceptions.md` R173, `10_state.md` R39). The primitive and the inbox as fields are
the model's choice (log entries 2, 3). -/
def Obligations.EveryStepCompletes : Prop :=
  ∀ s : State, ∃ t, step s = .next t ∧ t.prim = s.prim ∧ t.inbox = s.inbox.tail

/-- The reset table of `10_state.md` R36, register by register, and the status values after reset: of the machine's own
reset state, and of the reset state with any admissible primitive attached. Which primitive is attached at reset, and the
empty inbox and outbox, are the model's choice (log entries 1, 2, 3). -/
def Obligations.ResetStateHoldsTheResetValues : Prop :=
  let table (p : Primitive) : State := {
    prim := p, phase := .idle, mode := .ecb, k1 := [], k2 := [],
    prev := List.replicate p.blockSize 0, ctr := List.replicate p.blockSize 0, tweak := List.replicate 16 0,
    seedIv := List.replicate p.blockSize 0, seedCtr := List.replicate p.blockSize 0,
    seedSector := List.replicate 16 0, carry := [], pos := 0, blkIdx := 0, sticky := 0, inbox := [], outbox := [] }
  State.reset = table Config.attached ∧ Config.attached.Admissible ∧
  (∀ n, (statusValue n State.reset).toNat = if n = 0 then Config.attached.blockSize else 0) ∧
  ∀ p : Primitive, p.Admissible →
    State.resetWith p = table p ∧
    ∀ n, (statusValue n (State.resetWith p)).toNat = if n = 0 then p.blockSize else 0

/-- `10_state.md` R36, `70_reset_and_hazards.md` R190, R191, `41_engine_commands.md` R101: hardware reset puts every
register at its table value, with no response; DESTROY does the same to every register but `STICKY` and responds `OK`, in
every phase. The primitive, the inbox and the outbox are no registers: what they hold afterwards is the model's choice
(log entries 2, 3). -/
def Obligations.HardwareResetAndDestroyGiveTheResetValues : Prop :=
  ∀ s : State,
    (∀ rest, s.inbox = .hardwareReset :: rest →
      step s = .next {
        prim := s.prim, phase := .idle, mode := .ecb, k1 := [], k2 := [],
        prev := zeros s.bs, ctr := zeros s.bs, tweak := zeros 16,
        seedIv := zeros s.bs, seedCtr := zeros s.bs, seedSector := zeros 16,
        carry := [], pos := 0, blkIdx := 0, sticky := 0, inbox := rest, outbox := s.outbox }) ∧
    exec .destroy s = .next {
      prim := s.prim, phase := .idle, mode := .ecb, k1 := [], k2 := [],
      prev := zeros s.bs, ctr := zeros s.bs, tweak := zeros 16,
      seedIv := zeros s.bs, seedCtr := zeros s.bs, seedSector := zeros 16,
      carry := [], pos := 0, blkIdx := 0, sticky := s.sticky, inbox := s.inbox, outbox := s.outbox ++ [okAnswer []] }

/-! CONSTRUCT -/

/-- `CONSTRUCT.ECB` with an accepted key in IDLE (`41_engine_commands.md` R91, R92): the whole next state. -/
def Obligations.ConstructEcbStartsAnInstance : Prop :=
  ∀ (key : Bytes) (s : State), s.phase = .idle → s.prim.accepts key.length = true →
    exec (.constructEcb key [] [] []) s = .next { s with
      phase := .ready, mode := .ecb, k1 := key, k2 := [],
      prev := zeros s.bs, ctr := zeros s.bs, tweak := zeros 16,
      seedIv := zeros s.bs, seedCtr := zeros s.bs, seedSector := zeros 16,
      carry := [], pos := 0, blkIdx := 0, outbox := s.outbox ++ [okAnswer []] }

/-- `CONSTRUCT.CBC`, `.CFB`, `.OFB` with an accepted key and an IV of `BS` bytes in IDLE
(`41_engine_commands.md` R91, R92): the whole next state. -/
def Obligations.ConstructCbcCfbOfbStartAnInstance : Prop :=
  ∀ (key iv : Bytes) (s : State), s.phase = .idle → s.prim.accepts key.length = true → iv.length = s.bs →
    let started (mode : Mode) : State := { s with
      phase := .ready, mode := mode, k1 := key, k2 := [],
      prev := iv, ctr := zeros s.bs, tweak := zeros 16,
      seedIv := iv, seedCtr := zeros s.bs, seedSector := zeros 16,
      carry := [], pos := 0, blkIdx := 0, outbox := s.outbox ++ [okAnswer []] }
    exec (.constructCbc key iv [] []) s = .next (started .cbc) ∧
    exec (.constructCfb key iv [] []) s = .next (started .cfb) ∧
    exec (.constructOfb key iv [] []) s = .next (started .ofb)

/-- `CONSTRUCT.CTR` with an accepted key and an initial counter of `BS` bytes in IDLE (`41_engine_commands.md` R91,
R92, `45_ctr.md` R136): the whole next state; the first counter value is the seed itself. -/
def Obligations.ConstructCtrStartsAnInstance : Prop :=
  ∀ (key ctr : Bytes) (s : State), s.phase = .idle → s.prim.accepts key.length = true → ctr.length = s.bs →
    exec (.constructCtr key [] ctr []) s = .next { s with
      phase := .ready, mode := .ctr, k1 := key, k2 := [],
      prev := zeros s.bs, ctr := ctr, tweak := zeros 16,
      seedIv := zeros s.bs, seedCtr := ctr, seedSector := zeros 16,
      carry := [], pos := 0, blkIdx := 0, outbox := s.outbox ++ [okAnswer []] }

/-- `CONSTRUCT.XTS` with two halves of an accepted length over 16-byte blocks in IDLE, the sector block absent or 16
bytes (`41_engine_commands.md` R91, R92, `46_xts.md` R140, R141, R148): the whole next state. -/
def Obligations.ConstructXtsStartsAnInstance : Prop :=
  ∀ (dataKey tweakKey sector : Bytes) (s : State), s.phase = .idle → s.bs = 16 →
    tweakKey.length = dataKey.length → s.prim.accepts dataKey.length = true →
    sector = [] ∨ sector.length = 16 →
    let sectorBlock := if sector = [] then zeros 16 else sector
    exec (.constructXts (dataKey ++ tweakKey) [] [] sector) s = .next { s with
      phase := .ready, mode := .xts, k1 := dataKey, k2 := tweakKey,
      prev := zeros 16, ctr := zeros 16, tweak := E s.prim tweakKey sectorBlock,
      seedIv := zeros 16, seedCtr := zeros 16, seedSector := sectorBlock,
      carry := [], pos := 0, blkIdx := 0, outbox := s.outbox ++ [okAnswer []] }

/-- `60_exceptions.md` R165, R166, R167, R171, in the order of the checks of `41_engine_commands.md` R91, which is the
priority of R162: in IDLE, the first of key length, unsupported operand, IV length, counter length that is wrong is the
error CONSTRUCT raises, in every mode; nothing but `STICKY` changes; with none wrong the instance is READY. -/
def Obligations.ConstructRaisesTheFirstErrorThatApplies : Prop :=
  ∀ (mode : Mode) (key iv ctr sector : Bytes) (s : State), s.phase = .idle →
    (¬ KeyLengthAccepted s.prim mode key →
      exec (constructInstr mode key iv ctr sector) s = .next (s.errored 1)) ∧
    (KeyLengthAccepted s.prim mode key → OperandUnsupported s.bs mode iv ctr sector →
      exec (constructInstr mode key iv ctr sector) s = .next (s.errored 5)) ∧
    (KeyLengthAccepted s.prim mode key → ¬ OperandUnsupported s.bs mode iv ctr sector → IvLengthWrong s.bs mode iv →
      exec (constructInstr mode key iv ctr sector) s = .next (s.errored 2)) ∧
    (KeyLengthAccepted s.prim mode key → ¬ OperandUnsupported s.bs mode iv ctr sector →
      CounterLengthWrong s.bs mode ctr →
      exec (constructInstr mode key iv ctr sector) s = .next (s.errored 3)) ∧
    (ConstructAccepted s.prim mode key iv ctr sector →
      ∃ t, exec (constructInstr mode key iv ctr sector) s = .next t ∧ t.phase = .ready ∧ t.mode = mode ∧
        t.sticky = s.sticky ∧ t.outbox = s.outbox ++ [okAnswer []])

/-! Phases and errors -/

/-- `60_exceptions.md` R169: a command in a phase that does not admit it raises `InvalidState`, whatever its
operands. -/
def Obligations.OutOfPhaseCommandsRaiseInvalidState : Prop :=
  ∀ s : State,
    (s.phase ≠ .idle → ∀ mode key iv ctr sector,
      exec (constructInstr mode key iv ctr sector) s = .next (s.errored 7)) ∧
    (s.phase ≠ .ready → ∀ dir last data, exec (dataInstr dir last data) s = .next (s.errored 7)) ∧
    (s.phase = .idle → exec .restart s = .next (s.errored 7))

/-- `41_engine_commands.md` R97: the transitions of `PHASE`, every row of the table with the error it names, and the
status read, which has none. -/
def Obligations.PhaseTransitions : Prop :=
  ∀ s t : State,
    (∀ mode key iv ctr sector, exec (constructInstr mode key iv ctr sector) s = .next t →
      (s.phase = .idle → ConstructAccepted s.prim mode key iv ctr sector → t.phase = .ready) ∧
      (s.phase = .idle → ¬ ConstructAccepted s.prim mode key iv ctr sector →
        t.phase = .idle ∧ ∃ code ∈ [1, 2, 3, 5], t = s.errored code) ∧
      (s.phase ≠ .idle → t.phase = s.phase ∧ t = s.errored 7)) ∧
    (∀ dir last data, exec (dataInstr dir last data) s = .next t →
      (s.phase = .ready → last = false → t.phase = .ready) ∧
      (s.phase = .ready → last = true → ¬ (s.mode = .xts ∧ s.pos + data.length < s.bs) → t.phase = .done) ∧
      (s.phase = .ready → last = true → s.mode = .xts → s.pos + data.length < s.bs →
        t.phase = .ready ∧ t = s.errored 4) ∧
      (s.phase ≠ .ready → t.phase = s.phase ∧ t = s.errored 7)) ∧
    (exec .restart s = .next t →
      (s.phase = .idle → t.phase = .idle ∧ t = s.errored 7) ∧ (s.phase ≠ .idle → t.phase = .ready)) ∧
    (exec .destroy s = .next t → t.phase = .idle) ∧
    (∀ n, exec (.sr n) s = .next t → t.phase = s.phase) ∧
    (∀ p rest, s.inbox = .request (.packet p) :: rest → IllegalPacket p → step s = .next t →
      t.phase = s.phase ∧ t = { s with inbox := rest }.errored 6) ∧
    (∀ rest, s.inbox = .hardwareReset :: rest → step s = .next t → t.phase = .idle)

/-- `60_exceptions.md` R163, R164: whatever the command, a step that gives out a response with a non-zero code gives no
output bytes, sets that code's bit of `STICKY`, and changes no other register. -/
def Obligations.ErrorsChangeOnlySticky : Prop :=
  ∀ (s t : State) (rw0 rw1 : Word) (out : Bytes), step s = .next t →
    t.outbox = s.outbox ++ [.response rw0 rw1 out] → rw0 ≠ 0 →
    ∃ code, 1 ≤ code ∧ code ≤ 7 ∧ rw0 = BitVec.ofNat 32 code ∧ rw1 = 0 ∧ out = [] ∧
      t = { s with inbox := s.inbox.tail }.errored code

/-- `10_state.md` R30: over any run without a hardware reset from a clear `STICKY`, bit `n` (1 to 7) is set exactly
when some command has been answered with error `n`, and bit 0 is 0; no command ever clears a bit. Hardware reset clears
all of them. -/
def Obligations.StickyRecordsEveryErrorSinceReset : Prop :=
  (∀ (k : Nat) (s t : State), (∀ e ∈ s.inbox, e ≠ .hardwareReset) → s.sticky = 0 →
    run k s = .next t →
    ∃ answers, t.outbox = s.outbox ++ answers ∧ t.sticky.getLsbD 0 = false ∧
      ∀ n, 1 ≤ n → n ≤ 7 → (t.sticky.getLsbD n = true ↔ errorAnswer n ∈ answers)) ∧
  (∀ (s t : State), step s = .next t →
    (∀ rest, s.inbox ≠ .hardwareReset :: rest) → ∀ n, s.sticky.getLsbD n = true → t.sticky.getLsbD n = true) ∧
  (∀ (s : State) rest, s.inbox = .hardwareReset :: rest → ∃ t, step s = .next t ∧ t.sticky = 0)

/-- `41_engine_commands.md` R93 check 1, `60_exceptions.md` R170: `InsufficientDataForXTS` is the answer of a data
command exactly when it has LAST, in READY, in XTS, and the sector would end with fewer than `BS` bytes; the instance
stays as it was. -/
def Obligations.InsufficientDataForXtsExactlyWhenShort : Prop :=
  ∀ (dir : Dir) (last : Bool) (data : Bytes) (s t : State), exec (dataInstr dir last data) s = .next t →
    (t.outbox = s.outbox ++ [errorAnswer 4] ↔
      s.phase = .ready ∧ s.mode = .xts ∧ last = true ∧ s.pos + data.length < s.bs) ∧
    (t.outbox = s.outbox ++ [errorAnswer 4] → t = s.errored 4 ∧ t.phase = .ready ∧ t.carry = s.carry)

/-! Status reads and what a host may learn -/

/-- `10_state.md` R31, R32, R33: a status read changes nothing; what each register shows, field by field. -/
def Obligations.StatusReadsShowTheRegisters : Prop :=
  ∀ (n : Nat) (s : State), ∃ v, exec (.sr n) s = .next { s with outbox := s.outbox ++ [.status v] } ∧
    (6 ≤ n → v = 0) ∧
    (s.Inv →
      (n = 0 → (v.extractLsb 7 0).toNat = s.bs ∧ v.extractLsb 31 8 = 0#24) ∧
      (n = 1 → (v.extractLsb 1 0).toNat = s.phase.number ∧ (v.extractLsb 4 2).toNat = s.mode.number ∧
        v.extractLsb 31 5 = 0#27) ∧
      (n = 2 → v.extractLsb 7 0 = s.sticky ∧ v.extractLsb 31 8 = 0#24) ∧
      (n = 3 → (v.extractLsb 6 0).toNat = s.carry.length ∧ v.extractLsb 31 7 = 0#25) ∧
      (n = 4 → v.toNat = s.pos % 2 ^ 32) ∧
      (n = 5 → v.toNat = s.blkIdx % 2 ^ 32))

/-- `10_state.md` R34: two engines that differ only in keys, chaining state, seeds and buffered bytes answer the same
to every command, but for the output bytes themselves, and stay indistinguishable. -/
def Obligations.SecretsShowOnlyInOutputBytes : Prop :=
  ∀ (i : Instr) (s s' t t' : State), s.Inv → s'.Inv → PublicEq s s' →
    exec i s = .next t → exec i s' = .next t' → PublicEq t t'

/-- `10_state.md` R21, R22, R26: the mode, the keys and the seeds are written by a successful CONSTRUCT, by DESTROY and
by hardware reset, and by nothing else. -/
def Obligations.KeysModeAndSeedsHaveThreeWriters : Prop :=
  ∀ s t : State, step s = .next t →
    (t.mode = s.mode ∧ t.k1 = s.k1 ∧ t.k2 = s.k2 ∧ t.seedIv = s.seedIv ∧ t.seedCtr = s.seedCtr ∧
      t.seedSector = s.seedSector) ∨
    (∃ rest, s.inbox = .hardwareReset :: rest) ∨
    (∃ r rest, s.inbox = .request r :: rest ∧ decode r = .ok .destroy) ∨
    (∃ r rest mode key iv ctr sector, s.inbox = .request r :: rest ∧
      decode r = .ok (constructInstr mode key iv ctr sector) ∧ s.phase = .idle ∧
      ConstructAccepted s.prim mode key iv ctr sector ∧ t.phase = .ready)

/-! The block primitive, the counter and the tweak -/

/-- `40_block_primitive.md` R80, R81, R82: under every accepted key `E` and `D` give blocks and are inverse to each
other on blocks. -/
def Obligations.PrimitiveIsAKeyedPermutation : Prop :=
  ∀ (p : Primitive) (k b : Bytes), p.accepts k.length = true → b.length = p.blockSize →
    (E p k b).length = p.blockSize ∧ (D p k b).length = p.blockSize ∧ D p k (E p k b) = b ∧ E p k (D p k b) = b

/-- `00_scope.md` R14: `be_int` and `le_int` are the sums of the rule, and `be_bytes`, `le_bytes` their inverses. -/
def Obligations.IntegersOfByteStrings : Prop :=
  (∀ a : Bytes,
    beInt a = ∑ i : Fin a.length, (a.get i).toNat * 256 ^ (a.length - 1 - i.val) ∧
    leInt a = ∑ i : Fin a.length, (a.get i).toNat * 256 ^ i.val ∧
    beBytes (beInt a) a.length = a ∧ leBytes (leInt a) a.length = a) ∧
  (∀ v n : Nat, v < 256 ^ n →
    (beBytes v n).length = n ∧ beInt (beBytes v n) = v ∧ (leBytes v n).length = n ∧ leInt (leBytes v n) = v)

/-- `45_ctr.md` R132: `inc` adds one to the big-endian integer modulo `2^(8*BS)`, and is the byte loop of the rule. -/
def Obligations.CounterIncrement : Prop :=
  ∀ c : Bytes, (inc c).length = c.length ∧ beInt (inc c) = (beInt c + 1) % 2 ^ (8 * c.length) ∧ inc c = incBytes c

/-- `45_ctr.md` R131, R135, R137: after `n` advances the cursor is `counter_n`; the wraparound is silent, the sequence
repeats after `2^(8*BS)` advances and not before. -/
def Obligations.CounterSequence : Prop :=
  ∀ c : Bytes,
    (∀ n, inc^[n] c = counterAt c n) ∧
    inc (List.replicate c.length 0xff) = zeros c.length ∧
    inc^[2 ^ (8 * c.length)] c = c ∧
    (∀ i j, i < j → j < 2 ^ (8 * c.length) → inc^[i] c ≠ inc^[j] c)

/-- `46_xts.md` R142: `mul_alpha` is the shift and reduction of the 128-bit little-endian value, is the byte loop of the
rule, and is a bijection on 16-byte values. -/
def Obligations.MultiplicationByAlpha : Prop :=
  (∀ t : Bytes, t.length = 16 →
    leInt (mulAlpha t) =
      (if 2 ^ 127 ≤ leInt t then (leInt t * 2 - 2 ^ 128) ^^^ 0x87 else leInt t * 2) ∧
    mulAlpha t = mulAlphaBytes t ∧ (mulAlpha t).length = 16) ∧
  (∀ t u : Bytes, t.length = 16 → u.length = 16 → mulAlpha t = mulAlpha u → t = u) ∧
  (∀ u : Bytes, u.length = 16 → ∃ t : Bytes, t.length = 16 ∧ mulAlpha t = u)

/-! The block operations -/

/-- `20_memory.md` R41, R42: bytes enter the carry buffer at the end and leave from the front, in order. -/
def Obligations.CarryBufferIsAQueue : Prop :=
  ∀ (s : State) (d : Bytes) (n : Nat),
    s.carryAppend d = { s with carry := s.carry ++ d } ∧
    (n ≤ s.carry.length → (s.carryTake n).1.length = n ∧ (s.carryTake n).1 ++ (s.carryTake n).2.carry = s.carry ∧
      (s.carryTake n).2 = { s with carry := (s.carryTake n).2.carry })

/-- `42_ecb.md` R110, R111, through the arbiter (`41_engine_commands.md` R98). -/
def Obligations.EcbBlockOperations : Prop :=
  ∀ (x : Bytes) (s : State), s.mode = .ecb →
    blockOp .encrypt x s = (E s.prim s.k1 x, { s with blkIdx := s.blkIdx + 1 }) ∧
    blockOp .decrypt x s = (D s.prim s.k1 x, { s with blkIdx := s.blkIdx + 1 })

/-- `43_cbc.md` R115, R116, through the arbiter (`41_engine_commands.md` R98). -/
def Obligations.CbcBlockOperations : Prop :=
  ∀ (x : Bytes) (s : State), s.mode = .cbc →
    blockOp .encrypt x s = (E s.prim s.k1 (xorB x s.prev),
      { s with prev := E s.prim s.k1 (xorB x s.prev), blkIdx := s.blkIdx + 1 }) ∧
    blockOp .decrypt x s = (xorB (D s.prim s.k1 x) s.prev, { s with prev := x, blkIdx := s.blkIdx + 1 })

/-- `44_cfb_ofb.md` R120, R121, R123, through the arbiter. -/
def Obligations.CfbBlockOperations : Prop :=
  ∀ (x : Bytes) (s : State), s.mode = .cfb →
    blockOp .encrypt x s = (xorB (E s.prim s.k1 s.prev) x,
      { s with prev := xorB (E s.prim s.k1 s.prev) x, blkIdx := s.blkIdx + 1 }) ∧
    blockOp .decrypt x s = (xorB (E s.prim s.k1 s.prev) x, { s with prev := x, blkIdx := s.blkIdx + 1 }) ∧
    cfbTail x s = (xorB ((E s.prim s.k1 s.prev).take x.length) x, s)

/-- `44_cfb_ofb.md` R122, R124, through the arbiter; both directions are one operation. -/
def Obligations.OfbBlockOperations : Prop :=
  ∀ (x : Bytes) (s : State), s.mode = .ofb →
    (∀ dir, blockOp dir x s = (xorB x (E s.prim s.k1 s.prev),
      { s with prev := E s.prim s.k1 s.prev, blkIdx := s.blkIdx + 1 })) ∧
    ofbTail x s = (xorB ((E s.prim s.k1 s.prev).take x.length) x, { s with prev := E s.prim s.k1 s.prev })

/-- `45_ctr.md` R133, R134, through the arbiter (`41_engine_commands.md` R98); the keystream block is that of `CTR`
before the increment. That a final fragment takes the first bytes of it is the spec's own inference, marked in R134
"[derived: from rule R133 and `20_memory.md` rule R43]". -/
def Obligations.CtrBlockOperations : Prop :=
  ∀ (x : Bytes) (s : State), s.mode = .ctr →
    (∀ dir, blockOp dir x s = (xorB x (E s.prim s.k1 s.ctr),
      { s with ctr := inc s.ctr, blkIdx := s.blkIdx + 1 })) ∧
    ctrTail x s = (xorB ((E s.prim s.k1 s.ctr).take x.length) x, { s with ctr := inc s.ctr })

/-- `46_xts.md` R143, R144, R145, R146, through the arbiter: the two block operations and ciphertext stealing in both
directions, on a complete block `a` and a fragment `b`. -/
def Obligations.XtsBlockOperations : Prop :=
  ∀ (x a b : Bytes) (s : State), s.mode = .xts → a.length = 16 → 1 ≤ b.length → b.length ≤ 15 →
    let enc (t y : Bytes) := xorB (E s.prim s.k1 (xorB y t)) t
    let dec (t y : Bytes) := xorB (D s.prim s.k1 (xorB y t)) t
    let t0 := s.tweak
    let t1 := mulAlpha t0
    let stolen : State := { s with tweak := mulAlpha t1, blkIdx := s.blkIdx + 1 }
    blockOp .encrypt x s = (enc t0 x, { s with tweak := t1, blkIdx := s.blkIdx + 1 }) ∧
    blockOp .decrypt x s = (dec t0 x, { s with tweak := t1, blkIdx := s.blkIdx + 1 }) ∧
    xtsSteal .encrypt (a ++ b) s =
      (enc t1 (b ++ (enc t0 a).drop b.length) ++ (enc t0 a).take b.length, stolen) ∧
    xtsSteal .decrypt (a ++ b) s =
      (dec t0 (b ++ (dec t1 a).drop b.length) ++ (dec t1 a).take b.length, stolen)

/-- `46_xts.md` R146 (the source's property S4): from equal tweaks and under an accepted key, decryption undoes
ciphertext stealing, the lengths are equal and both leave the same state. The arrangement of the stealing is the spec's
own (D12, general knowledge); the round trip does not depend on it. -/
def Obligations.CiphertextStealingRoundTrip : Prop :=
  ∀ (x : Bytes) (s : State), s.bs = 16 → s.prim.accepts s.k1.length = true → s.tweak.length = 16 →
    17 ≤ x.length → x.length ≤ 31 →
    (xtsSteal .encrypt x s).1.length = x.length ∧
    xtsSteal .decrypt (xtsSteal .encrypt x s).1 s = (x, (xtsSteal .encrypt x s).2)

/-! The data commands: what they give out and the whole next state -/

/-- ENC, ENC.L, DEC, DEC.L in ECB (`42_ecb.md` R110 to R113, `41_engine_commands.md` R93, R94, R96): every complete
block of the buffered input goes through the primitive by itself; the rest stays in the carry buffer, after LAST too. -/
def Obligations.EcbDataCommands : Prop :=
  ∀ (dir : Dir) (last : Bool) (data : Bytes) (s : State), s.prim.Admissible → s.phase = .ready → s.mode = .ecb →
    let buf := s.carry ++ data
    let n := buf.length / s.bs
    exec (dataInstr dir last data) s = .next { s with
      phase := if last then .done else .ready
      carry := buf.drop (n * s.bs), pos := s.pos + data.length, blkIdx := s.blkIdx + n
      outbox := s.outbox ++ [okAnswer (blocksOut n fun j => blockFunction dir s.prim s.k1 (blockAt s.bs buf j))] }

/-- ENC, ENC.L, DEC, DEC.L in CBC (`43_cbc.md` R115 to R118, `41_engine_commands.md` R93, R94, R96). -/
def Obligations.CbcDataCommands : Prop :=
  ∀ (last : Bool) (data : Bytes) (s : State), s.prim.Admissible → s.phase = .ready → s.mode = .cbc →
    let buf := s.carry ++ data
    let n := buf.length / s.bs
    exec (dataInstr .encrypt last data) s = .next { s with
      phase := if last then .done else .ready
      prev := cbcCipher s.prim s.k1 s.prev buf n
      carry := buf.drop (n * s.bs), pos := s.pos + data.length, blkIdx := s.blkIdx + n
      outbox := s.outbox ++ [okAnswer (blocksOut n fun j => cbcCipher s.prim s.k1 s.prev buf (j + 1))] } ∧
    exec (dataInstr .decrypt last data) s = .next { s with
      phase := if last then .done else .ready
      prev := feedback s.bs s.prev buf n
      carry := buf.drop (n * s.bs), pos := s.pos + data.length, blkIdx := s.blkIdx + n
      outbox := s.outbox ++ [okAnswer (blocksOut n fun j =>
        xorB (D s.prim s.k1 (blockAt s.bs buf j)) (feedback s.bs s.prev buf j))] }

/-- ENC, ENC.L, DEC, DEC.L in CFB (`44_cfb_ofb.md` R120, R121, R123, `41_engine_commands.md` R93, R94, R96): with LAST
the rest is a final fragment under the next keystream block, which changes no chaining register. -/
def Obligations.CfbDataCommands : Prop :=
  ∀ (last : Bool) (data : Bytes) (s : State), s.prim.Admissible → s.phase = .ready → s.mode = .cfb →
    let buf := s.carry ++ data
    let n := buf.length / s.bs
    let rest := buf.drop (n * s.bs)
    let tail (c : Bytes) : Bytes := if last then xorB ((E s.prim s.k1 c).take rest.length) rest else []
    exec (dataInstr .encrypt last data) s = .next { s with
      phase := if last then .done else .ready
      prev := cfbCipher s.prim s.k1 s.prev buf n
      carry := if last then [] else rest
      pos := s.pos + data.length, blkIdx := s.blkIdx + n
      outbox := s.outbox ++ [okAnswer (blocksOut n (fun j => cfbCipher s.prim s.k1 s.prev buf (j + 1)) ++
        tail (cfbCipher s.prim s.k1 s.prev buf n))] } ∧
    exec (dataInstr .decrypt last data) s = .next { s with
      phase := if last then .done else .ready
      prev := feedback s.bs s.prev buf n
      carry := if last then [] else rest
      pos := s.pos + data.length, blkIdx := s.blkIdx + n
      outbox := s.outbox ++ [okAnswer (blocksOut n (fun j =>
        xorB (E s.prim s.k1 (feedback s.bs s.prev buf j)) (blockAt s.bs buf j)) ++
        tail (feedback s.bs s.prev buf n))] }

/-- ENC, ENC.L, DEC, DEC.L in OFB (`44_cfb_ofb.md` R122, R124, R126): block `j` is xored with `E` applied `j + 1` times
to `PREV`; a final fragment uses up one keystream block. -/
def Obligations.OfbDataCommands : Prop :=
  ∀ (dir : Dir) (last : Bool) (data : Bytes) (s : State), s.prim.Admissible → s.phase = .ready → s.mode = .ofb →
    let buf := s.carry ++ data
    let n := buf.length / s.bs
    let rest := buf.drop (n * s.bs)
    let stream := ofbStream s.prim s.k1 s.prev
    exec (dataInstr dir last data) s = .next { s with
      phase := if last then .done else .ready
      prev := stream (if last then blocksCovering s.bs buf.length else n)
      carry := if last then [] else rest
      pos := s.pos + data.length, blkIdx := s.blkIdx + n
      outbox := s.outbox ++ [okAnswer (blocksOut n (fun j => xorB (blockAt s.bs buf j) (stream (j + 1))) ++
        (if last then xorB ((stream (n + 1)).take rest.length) rest else []))] }

/-- ENC, ENC.L, DEC, DEC.L in CTR (`45_ctr.md` R131, R133, R134, R137): block `j` is xored with the encryption of
counter value `j` from `CTR`; a final fragment consumes one counter value. -/
def Obligations.CtrDataCommands : Prop :=
  ∀ (dir : Dir) (last : Bool) (data : Bytes) (s : State), s.prim.Admissible → s.phase = .ready → s.mode = .ctr →
    let buf := s.carry ++ data
    let n := buf.length / s.bs
    let rest := buf.drop (n * s.bs)
    exec (dataInstr dir last data) s = .next { s with
      phase := if last then .done else .ready
      ctr := counterAt s.ctr (if last then blocksCovering s.bs buf.length else n)
      carry := if last then [] else rest
      pos := s.pos + data.length, blkIdx := s.blkIdx + n
      outbox := s.outbox ++ [okAnswer (blocksOut n (fun j =>
          xorB (blockAt s.bs buf j) (E s.prim s.k1 (counterAt s.ctr j))) ++
        (if last then xorB ((E s.prim s.k1 (counterAt s.ctr n)).take rest.length) rest else []))] }

/-- ENC and DEC without LAST in XTS (`46_xts.md` R143, R144, R147, R152, `41_engine_commands.md` R93 to R95): all
complete blocks but the most recent one, block `j` under tweak `j` from `TWEAK`. -/
def Obligations.XtsDataCommandsBeforeLast : Prop :=
  ∀ (dir : Dir) (data : Bytes) (s : State), s.prim.Admissible → s.phase = .ready → s.mode = .xts →
    let buf := s.carry ++ data
    let n := buf.length / s.bs - 1
    exec (dataInstr dir false data) s = .next { s with
      tweak := tweakAt s.tweak n
      carry := buf.drop (n * s.bs), pos := s.pos + data.length, blkIdx := s.blkIdx + n
      outbox := s.outbox ++ [okAnswer (blocksOut n fun j =>
        xtsFunction dir s.prim s.k1 (tweakAt s.tweak j) (blockAt s.bs buf j))] }

/-- ENC.L and DEC.L in XTS when the sector has at least one block (`46_xts.md` R143 to R147, `41_engine_commands.md`
R93 to R96): a sector that ends on a block boundary is all ordinary blocks; otherwise the last complete block and the
fragment are exchanged by ciphertext stealing, under the last two tweaks. -/
def Obligations.XtsDataCommandsWithLast : Prop :=
  ∀ (dir : Dir) (data : Bytes) (s : State), s.Inv → s.phase = .ready → s.mode = .xts →
    16 ≤ s.pos + data.length →
    let buf := s.carry ++ data
    let block (t y : Bytes) : Bytes := xtsFunction dir s.prim s.k1 t y
    let ordinary (n : Nat) : Bytes := blocksOut n fun j => block (tweakAt s.tweak j) (blockAt 16 buf j)
    (buf.length % 16 = 0 →
      let n := buf.length / 16
      exec (dataInstr dir true data) s = .next { s with
        phase := .done, tweak := tweakAt s.tweak n, carry := []
        pos := s.pos + data.length, blkIdx := s.blkIdx + n
        outbox := s.outbox ++ [okAnswer (ordinary n)] }) ∧
    (buf.length % 16 ≠ 0 →
      let n := buf.length / 16 - 1
      let a := blockAt 16 buf n
      let b := buf.drop ((n + 1) * 16)
      let first := tweakAt s.tweak (if dir = .encrypt then n else n + 1)
      let second := tweakAt s.tweak (if dir = .encrypt then n + 1 else n)
      let whole := block first a
      exec (dataInstr dir true data) s = .next { s with
        phase := .done, tweak := tweakAt s.tweak (n + 2), carry := []
        pos := s.pos + data.length, blkIdx := s.blkIdx + n + 1
        outbox := s.outbox ++ [okAnswer (ordinary n ++ block second (b ++ whole.drop b.length) ++
          whole.take b.length)] })

/-- `41_engine_commands.md` R104: an empty data command without LAST in READY changes no register and answers
`(OK, empty)`. -/
def Obligations.EmptyDataCommandChangesNothing : Prop :=
  ∀ (dir : Dir) (s : State), s.Inv → s.phase = .ready →
    exec (dataInstr dir false []) s = .next { s with outbox := s.outbox ++ [okAnswer []] }

/-- What a data command leaves unchanged, in every mode (`10_state.md` R37, `41_engine_commands.md` R98): the
parameters, the mode, the keys, the seeds, and the chaining registers of the other modes; without an error, `STICKY`. -/
def Obligations.DataCommandFrame : Prop :=
  ∀ (dir : Dir) (last : Bool) (data : Bytes) (s t : State), exec (dataInstr dir last data) s = .next t →
    t.prim = s.prim ∧ t.mode = s.mode ∧ t.k1 = s.k1 ∧ t.k2 = s.k2 ∧ t.seedIv = s.seedIv ∧ t.seedCtr = s.seedCtr ∧
    t.seedSector = s.seedSector ∧ t.inbox = s.inbox ∧
    (s.mode ∉ [.cbc, .cfb, .ofb] → t.prev = s.prev) ∧ (s.mode ≠ .ctr → t.ctr = s.ctr) ∧
    (s.mode ≠ .xts → t.tweak = s.tweak) ∧
    (s.phase = .ready → ¬ (s.mode = .xts ∧ last = true ∧ s.pos + data.length < s.bs) → t.sticky = s.sticky)

/-- `41_engine_commands.md` R95: the XTS hold-back. -/
def Obligations.XtsHoldsBackTheLastBlock : Prop :=
  ∀ (dir : Dir) (data : Bytes) (s : State), s.Inv → s.phase = .ready → s.mode = .xts →
    s.bs ≤ s.pos + data.length →
    ∃ t, exec (dataInstr dir false data) s = .next t ∧
      s.bs ≤ t.carry.length ∧ t.carry.length < 2 * s.bs ∧ t.blkIdx = t.pos / s.bs - 1 ∧
      (outputSince s.outbox t).length = s.bs * (t.blkIdx - s.blkIdx)

/-- `41_engine_commands.md` R100: RESTART is legal in READY and DONE and gives the instance the state it had just after
its CONSTRUCT: the seeds are reloaded, the keys, the mode and `STICKY` stay; and, as the rule derives, it is the state
that DESTROY and the original CONSTRUCT would give. In IDLE it raises `InvalidState`. -/
def Obligations.RestartReturnsToTheStateAfterConstruct : Prop :=
  ∀ s : State,
    let t : State := { s with
      phase := .ready, prev := s.seedIv, ctr := s.seedCtr
      tweak := if s.mode = .xts then E s.prim s.k2 s.seedSector else zeros 16
      carry := [], pos := 0, blkIdx := 0, outbox := s.outbox ++ [okAnswer []] }
    (s.phase = .idle → exec .restart s = .next (s.errored 7)) ∧
    (s.phase ≠ .idle → exec .restart s = .next t) ∧
    (s.phase ≠ .idle → s.Inv →
      issue [.destroy, constructInstr s.mode (s.k1 ++ s.k2)
          (if takesIv s.mode then s.seedIv else []) (if s.mode = .ctr then s.seedCtr else [])
          (if s.mode = .xts then s.seedSector else [])] s =
        .next { t with outbox := s.outbox ++ [okAnswer [], okAnswer []] })

/-- `30_encoding.md` R61: every packet that decodes is answered with one response: `RW0` holds the code in its low
byte, `RW1` states the output length exactly, an error has no output, and the output exceeds the command's own data by
at most `2*BS - 1` bytes. -/
def Obligations.ResponseStatesTheOutputLength : Prop :=
  ∀ (i : Instr) (s : State), s.Inv → WellFormed i = true → (∀ n, i ≠ .sr n) →
    ∃ (t : State) (rw0 rw1 : Word) (out : Bytes),
      exec i s = .next t ∧ t.outbox = s.outbox ++ [.response rw0 rw1 out] ∧
      rw0.extractLsb 31 8 = 0#24 ∧ rw1.toNat = out.length ∧ (rw0 ≠ 0 → out = []) ∧
      (∀ dir last data, i = dataInstr dir last data → out.length ≤ data.length + (2 * s.bs - 1)) ∧
      ((∀ dir last data, i ≠ dataInstr dir last data) → out = [])

/-! The laws of the streaming machine -/

/-- `41_engine_commands.md` R102: chunk invariance. However a message is cut into data commands, the output, put
together, and the final registers are those of the one command; and if that one raises `InsufficientDataForXTS`, so
does the last of the pieces, and the earlier ones give nothing. -/
def Obligations.ChunkInvariance : Prop :=
  ∀ (dir : Dir) (pieces : List Bytes) (final : Bytes) (s : State), s.Inv → s.phase = .ready →
    ∃ (t u : State) (answers : List Answer) (lastAnswer oneAnswer : Answer),
      issue (message dir pieces final) s = .next t ∧
      exec (dataInstr dir true (pieces.flatten ++ final)) s = .next u ∧
      t.outbox = s.outbox ++ answers ++ [lastAnswer] ∧ answers.length = pieces.length ∧
      u.outbox = s.outbox ++ [oneAnswer] ∧
      (oneAnswer = errorAnswer 4 ∨ oneAnswer = okAnswer oneAnswer.out) ∧
      (oneAnswer = okAnswer oneAnswer.out →
        (∀ a ∈ answers ++ [lastAnswer], a = okAnswer a.out) ∧
        (answers ++ [lastAnswer]).flatMap Answer.out = oneAnswer.out ∧ { t with outbox := u.outbox } = u) ∧
      (oneAnswer = errorAnswer 4 → lastAnswer = errorAnswer 4 ∧ ∀ a ∈ answers, a = okAnswer [])

/-- `41_engine_commands.md` R103: the total output length, before LAST and after it, in every mode. -/
def Obligations.OutputLength : Prop :=
  ∀ (dir : Dir) (pieces : List Bytes) (final : Bytes) (s : State), s.Inv → s.phase = .ready → s.pos = 0 →
    (∃ t, issue (pieces.map (dataInstr dir false)) s = .next t ∧
      (outputSince s.outbox t).length =
        s.bs * (if s.mode = .xts then pieces.flatten.length / s.bs - 1 else pieces.flatten.length / s.bs)) ∧
    (let n := (pieces.flatten ++ final).length
     (s.mode = .xts → s.bs ≤ n) →
      ∃ t, issue (message dir pieces final) s = .next t ∧
        (s.mode = .ecb ∨ s.mode = .cbc →
          (outputSince s.outbox t).length = s.bs * (n / s.bs) ∧ t.carry.length = n % s.bs) ∧
        (s.mode ≠ .ecb → s.mode ≠ .cbc → (outputSince s.outbox t).length = n ∧ t.carry = []))

/-- `41_engine_commands.md` R105: the round trip, in every mode and for every cutting on both sides: decryption from
the same start of message gives the message back. -/
def Obligations.DecryptionUndoesEncryption : Prop :=
  ∀ (pieces pieces' : List Bytes) (final final' : Bytes) (s : State), s.Inv → s.phase = .ready → s.pos = 0 →
    compatible s.mode s.bs (pieces.flatten ++ final).length →
    ∃ t, issue (message .encrypt pieces final) s = .next t ∧
      (pieces'.flatten ++ final' = outputSince s.outbox t →
        ∃ u, issue (message .decrypt pieces' final') s = .next u ∧
          outputSince s.outbox u = pieces.flatten ++ final)

/-! Invariants -/

/-- The invariant of `10_state.md` R35 holds after reset, of whatever admissible primitive. -/
def Obligations.ResetMeetsTheInvariant : Prop :=
  State.reset.Inv ∧ State.reset.CursorInv ∧
  ∀ p : Primitive, p.Admissible → (State.resetWith p).Inv ∧ (State.resetWith p).CursorInv

/-- `10_state.md` R35, with R22 to R30 and R37: every step keeps the invariant of the state between commands. -/
def Obligations.EveryStepKeepsTheInvariant : Prop :=
  ∀ s t : State, s.Inv → step s = .next t → t.Inv

/-- `45_ctr.md` R131, R137, `46_xts.md` R147: every step keeps the counter and the tweak where the consumed stream puts
them. -/
def Obligations.EveryStepKeepsTheCursors : Prop :=
  ∀ s t : State, s.Inv → s.CursorInv → step s = .next t → t.CursorInv
end

