-- ==== Sys2Proof/Laws/Bytes.lean ====
section
/-! SUPPORT. Laws of byte strings and their integers: lengths, `xor`, `be_int` and `le_int` with their inverses,
`inc` and `mul_alpha`, and the contract of the block primitive. -/

namespace Sys2Proof.Machine

@[simp] theorem length_zeros (n : Nat) : (zeros n).length = n := List.length_replicate

theorem eq_nil_of_length_zero {a : Bytes} (h : a.length = 0) : a = [] := List.length_eq_zero_iff.mp h

/-! `xor` -/

@[simp] theorem length_xorB (a b : Bytes) : (xorB a b).length = min a.length b.length := by
  simp [xorB]

@[simp] theorem xorB_nil_right (a : Bytes) : xorB a [] = [] := by simp [xorB]

@[simp] theorem xorB_nil_left (a : Bytes) : xorB [] a = [] := by simp [xorB]

@[simp] theorem xorB_cons (x y : Byte) (a b : Bytes) : xorB (x :: a) (y :: b) = (x ^^^ y) :: xorB a b := rfl

theorem xorB_comm (a b : Bytes) : xorB a b = xorB b a := by
  induction a generalizing b with
  | nil => simp
  | cons x a ih => cases b with
    | nil => simp
    | cons y b => simp [ih b, BitVec.xor_comm x y]

/-- Applying the same `xor` twice gives the string back. -/
theorem xorB_cancel {a b : Bytes} (h : a.length ≤ b.length) : xorB (xorB a b) b = a := by
  induction a generalizing b with
  | nil => simp
  | cons x a ih => cases b with
    | nil => simp at h
    | cons y b =>
      have hxy : x ^^^ y ^^^ y = x := by simp
      simp only [xorB_cons, hxy, ih (Nat.le_of_succ_le_succ h)]

theorem xorB_cancel_left {a b : Bytes} (h : a.length ≤ b.length) : xorB b (xorB b a) = a := by
  rw [xorB_comm b (xorB b a), xorB_comm b a, xorB_cancel h]

theorem xorB_append {a b c d : Bytes} (h : a.length = c.length) :
    xorB (a ++ b) (c ++ d) = xorB a c ++ xorB b d := by
  simp [xorB, List.zipWith_append h]

/-! Integers of byte strings -/

@[simp] theorem length_beBytes (v n : Nat) : (beBytes v n).length = n := by
  induction n with
  | zero => rfl
  | succ n ih => simp [beBytes, ih]

theorem beInt_lt (a : Bytes) : beInt a < 256 ^ a.length := by
  induction a with
  | nil => simp [beInt]
  | cons b a ih =>
    have hb : b.toNat + 1 ≤ 256 := b.isLt
    have := Nat.mul_le_mul_right (256 ^ a.length) hb
    simp only [beInt, List.length_cons, Nat.pow_succ]
    rw [Nat.add_mul] at this
    omega

theorem beInt_beBytes (v n : Nat) : beInt (beBytes v n) = v % 256 ^ n := by
  induction n with
  | zero => simp [beBytes, beInt, Nat.mod_one]
  | succ n ih =>
    simp only [beBytes, beInt, length_beBytes, ih, BitVec.toNat_ofNat]
    rw [Nat.pow_succ (n := 256) (m := n), Nat.mod_mul, Nat.add_comm, Nat.mul_comm]

theorem beBytes_mod (v n : Nat) : beBytes (v % 256 ^ n) n = beBytes v n := by
  suffices h : ∀ k m v, k ≤ m → beBytes (v % 256 ^ m) k = beBytes v k from h n n v le_rfl
  intro k
  induction k with
  | zero => intros; rfl
  | succ k ih =>
    intro m v hk
    simp only [beBytes, ih m v (by omega), List.cons.injEq, and_true]
    obtain ⟨d, rfl⟩ := Nat.exists_eq_add_of_lt hk
    apply BitVec.eq_of_toNat_eq
    have he : 256 ^ (k + d + 1) = 256 ^ k * (256 * 256 ^ d) := by ring
    rw [BitVec.toNat_ofNat, BitVec.toNat_ofNat, he, Nat.mod_mul_right_div_self]
    exact Nat.mod_mul_right_mod _ _ _

theorem beBytes_beInt (a : Bytes) : beBytes (beInt a) a.length = a := by
  induction a with
  | nil => rfl
  | cons b a ih =>
    have hlt := beInt_lt a
    have hdiv : (b.toNat * 256 ^ a.length + beInt a) / 256 ^ a.length = b.toNat := by
      rw [Nat.mul_comm, Nat.mul_add_div (Nat.pow_pos (by decide)), Nat.div_eq_of_lt hlt, Nat.add_zero]
    have htail : beBytes (b.toNat * 256 ^ a.length + beInt a) a.length = a := by
      rw [← beBytes_mod, Nat.mul_comm, Nat.mul_add_mod, Nat.mod_eq_of_lt hlt, ih]
    simp only [List.length_cons, beBytes, beInt, hdiv, htail, List.cons.injEq, and_true]
    simp

theorem beInt_injective {a b : Bytes} (hl : a.length = b.length) (h : beInt a = beInt b) : a = b := by
  rw [← beBytes_beInt a, ← beBytes_beInt b, h, hl]

@[simp] theorem length_leBytes (v n : Nat) : (leBytes v n).length = n := by
  induction n generalizing v with
  | zero => rfl
  | succ n ih => simp [leBytes, ih]

theorem leInt_lt (a : Bytes) : leInt a < 256 ^ a.length := by
  induction a with
  | nil => simp [leInt]
  | cons b a ih =>
    have hb : b.toNat < 256 := b.isLt
    simp only [leInt, List.length_cons, Nat.pow_succ]
    omega

theorem leInt_leBytes (v n : Nat) : leInt (leBytes v n) = v % 256 ^ n := by
  induction n generalizing v with
  | zero => simp [leBytes, leInt, Nat.mod_one]
  | succ n ih =>
    simp only [leBytes, leInt, ih, BitVec.toNat_ofNat]
    rw [Nat.pow_succ (n := 256) (m := n), Nat.mul_comm (256 ^ n), Nat.mod_mul]

theorem leBytes_leInt (a : Bytes) : leBytes (leInt a) a.length = a := by
  induction a with
  | nil => rfl
  | cons b a ih =>
    have hb : b.toNat < 256 := b.isLt
    have hdiv : (b.toNat + 256 * leInt a) / 256 = leInt a := by omega
    simp only [List.length_cons, leBytes, leInt, hdiv, ih, List.cons.injEq, and_true]
    apply BitVec.eq_of_toNat_eq
    rw [BitVec.toNat_ofNat]
    omega

theorem leInt_injective {a b : Bytes} (hl : a.length = b.length) (h : leInt a = leInt b) : a = b := by
  rw [← leBytes_leInt a, ← leBytes_leInt b, h, hl]

/-! The counter increment and the multiplication by alpha -/

theorem pow_eight_mul (n : Nat) : 2 ^ (8 * n) = 256 ^ n := by rw [Nat.pow_mul]

@[simp] theorem length_inc (c : Bytes) : (inc c).length = c.length := by simp [inc]

theorem beInt_inc (c : Bytes) : beInt (inc c) = (beInt c + 1) % 256 ^ c.length := by
  simp [inc, beInt_beBytes, pow_eight_mul]

@[simp] theorem length_mulAlpha (t : Bytes) : (mulAlpha t).length = 16 := by simp [mulAlpha]

/-! The block primitive -/

theorem fit_of_length {n : Nat} {b : Bytes} (h : b.length = n) : fit n b = b := by
  simp [fit, ← h]

theorem fit_block {n : Nat} (b : Block n) : fit n b.1 = b.1 := fit_of_length b.2

@[simp] theorem length_fit_eq (n : Nat) (b : Bytes) : (fit n b).length = n := length_fit n b

theorem length_rotl1 (b : Bytes) : (rotl1 b).length = b.length := by
  simp only [rotl1, List.length_append, List.length_drop, List.length_take]; omega

theorem length_rotr1 (b : Bytes) : (rotr1 b).length = b.length := by
  simp only [rotr1, List.length_append, List.length_drop, List.length_take]; omega

theorem rotr1_rotl1 (b : Bytes) : rotr1 (rotl1 b) = b := by
  cases b with
  | nil => rfl
  | cons x a => simp [rotl1, rotr1]

theorem rotl1_rotr1 (b : Bytes) : rotl1 (rotr1 b) = b := by
  rcases List.eq_nil_or_concat b with rfl | ⟨a, x, rfl⟩
  · rfl
  · simp [rotl1, rotr1]

/-- `E` gives a block (`40_block_primitive.md` R80). -/
@[simp] theorem length_E (p : Primitive) (k b : Bytes) : (E p k b).length = p.blockSize := by
  unfold E
  split
  · exact (Config.cipher p.blockSize k _).2
  · simp [length_rotl1]

/-- `D` gives a block (`40_block_primitive.md` R81). -/
@[simp] theorem length_D (p : Primitive) (k b : Bytes) : (D p k b).length = p.blockSize := by
  unfold D
  split
  · exact ((Config.cipher p.blockSize k).symm _).2
  · simp [length_rotr1]

/-- `D(k, E(k, B)) = B` (`40_block_primitive.md` R82). -/
theorem D_E (p : Primitive) (k : Bytes) {b : Bytes} (h : b.length = p.blockSize) : D p k (E p k b) = b := by
  unfold D E
  split
  · simp [fit_block, fit_of_length h]
  · have hl : (xorB (rotl1 b) (fit p.blockSize k)).length = p.blockSize := by simp [length_rotl1, h]
    simp only [fit_of_length h, fit_of_length hl]
    rw [xorB_cancel (by simp [length_rotl1, h]), rotr1_rotl1]

/-- `E(k, D(k, B)) = B` (`40_block_primitive.md` R82). -/
theorem E_D (p : Primitive) (k : Bytes) {b : Bytes} (h : b.length = p.blockSize) : E p k (D p k b) = b := by
  unfold D E
  split
  · simp [fit_block, fit_of_length h]
  · have hl : (rotr1 (xorB b (fit p.blockSize k))).length = p.blockSize := by simp [length_rotr1, h]
    simp only [fit_of_length h, fit_of_length hl]
    rw [rotl1_rotr1, xorB_cancel (by simp [h])]

end Sys2Proof.Machine
end

