-- ==== Sys2Proof/Laws/State.lean ====
section
/-! SUPPORT. What each operation of `Machine/Ops.lean` does to each field of the state: one lemma per field and
operation, so that no later proof unfolds a record update. -/

namespace Sys2Proof.Machine.State

/-! `respond` -/

@[simp] theorem respond_prim (s : State) (out : Bytes) : (s.respond out).prim = s.prim := rfl
@[simp] theorem respond_phase (s : State) (out : Bytes) : (s.respond out).phase = s.phase := rfl
@[simp] theorem respond_mode (s : State) (out : Bytes) : (s.respond out).mode = s.mode := rfl
@[simp] theorem respond_k1 (s : State) (out : Bytes) : (s.respond out).k1 = s.k1 := rfl
@[simp] theorem respond_k2 (s : State) (out : Bytes) : (s.respond out).k2 = s.k2 := rfl
@[simp] theorem respond_prev (s : State) (out : Bytes) : (s.respond out).prev = s.prev := rfl
@[simp] theorem respond_ctr (s : State) (out : Bytes) : (s.respond out).ctr = s.ctr := rfl
@[simp] theorem respond_tweak (s : State) (out : Bytes) : (s.respond out).tweak = s.tweak := rfl
@[simp] theorem respond_seedIv (s : State) (out : Bytes) : (s.respond out).seedIv = s.seedIv := rfl
@[simp] theorem respond_seedCtr (s : State) (out : Bytes) : (s.respond out).seedCtr = s.seedCtr := rfl
@[simp] theorem respond_seedSector (s : State) (out : Bytes) : (s.respond out).seedSector = s.seedSector := rfl
@[simp] theorem respond_carry (s : State) (out : Bytes) : (s.respond out).carry = s.carry := rfl
@[simp] theorem respond_pos (s : State) (out : Bytes) : (s.respond out).pos = s.pos := rfl
@[simp] theorem respond_blkIdx (s : State) (out : Bytes) : (s.respond out).blkIdx = s.blkIdx := rfl
@[simp] theorem respond_sticky (s : State) (out : Bytes) : (s.respond out).sticky = s.sticky := rfl
@[simp] theorem respond_inbox (s : State) (out : Bytes) : (s.respond out).inbox = s.inbox := rfl
@[simp] theorem respond_outbox (s : State) (out : Bytes) : (s.respond out).outbox = s.outbox ++ [.response 0 (BitVec.ofNat 32 out.length) out] := rfl

/-! `raise` -/

@[simp] theorem raise_prim (s : State) (e : Error) : (s.raise e).prim = s.prim := rfl
@[simp] theorem raise_phase (s : State) (e : Error) : (s.raise e).phase = s.phase := rfl
@[simp] theorem raise_mode (s : State) (e : Error) : (s.raise e).mode = s.mode := rfl
@[simp] theorem raise_k1 (s : State) (e : Error) : (s.raise e).k1 = s.k1 := rfl
@[simp] theorem raise_k2 (s : State) (e : Error) : (s.raise e).k2 = s.k2 := rfl
@[simp] theorem raise_prev (s : State) (e : Error) : (s.raise e).prev = s.prev := rfl
@[simp] theorem raise_ctr (s : State) (e : Error) : (s.raise e).ctr = s.ctr := rfl
@[simp] theorem raise_tweak (s : State) (e : Error) : (s.raise e).tweak = s.tweak := rfl
@[simp] theorem raise_seedIv (s : State) (e : Error) : (s.raise e).seedIv = s.seedIv := rfl
@[simp] theorem raise_seedCtr (s : State) (e : Error) : (s.raise e).seedCtr = s.seedCtr := rfl
@[simp] theorem raise_seedSector (s : State) (e : Error) : (s.raise e).seedSector = s.seedSector := rfl
@[simp] theorem raise_carry (s : State) (e : Error) : (s.raise e).carry = s.carry := rfl
@[simp] theorem raise_pos (s : State) (e : Error) : (s.raise e).pos = s.pos := rfl
@[simp] theorem raise_blkIdx (s : State) (e : Error) : (s.raise e).blkIdx = s.blkIdx := rfl
@[simp] theorem raise_sticky (s : State) (e : Error) : (s.raise e).sticky = stickyWith s.sticky e := rfl
@[simp] theorem raise_inbox (s : State) (e : Error) : (s.raise e).inbox = s.inbox := rfl
@[simp] theorem raise_outbox (s : State) (e : Error) : (s.raise e).outbox = s.outbox ++ [.response (BitVec.ofNat 32 e.code) 0 []] := rfl

/-! `carryAppend` -/

@[simp] theorem carryAppend_prim (s : State) (d : Bytes) : (s.carryAppend d).prim = s.prim := rfl
@[simp] theorem carryAppend_phase (s : State) (d : Bytes) : (s.carryAppend d).phase = s.phase := rfl
@[simp] theorem carryAppend_mode (s : State) (d : Bytes) : (s.carryAppend d).mode = s.mode := rfl
@[simp] theorem carryAppend_k1 (s : State) (d : Bytes) : (s.carryAppend d).k1 = s.k1 := rfl
@[simp] theorem carryAppend_k2 (s : State) (d : Bytes) : (s.carryAppend d).k2 = s.k2 := rfl
@[simp] theorem carryAppend_prev (s : State) (d : Bytes) : (s.carryAppend d).prev = s.prev := rfl
@[simp] theorem carryAppend_ctr (s : State) (d : Bytes) : (s.carryAppend d).ctr = s.ctr := rfl
@[simp] theorem carryAppend_tweak (s : State) (d : Bytes) : (s.carryAppend d).tweak = s.tweak := rfl
@[simp] theorem carryAppend_seedIv (s : State) (d : Bytes) : (s.carryAppend d).seedIv = s.seedIv := rfl
@[simp] theorem carryAppend_seedCtr (s : State) (d : Bytes) : (s.carryAppend d).seedCtr = s.seedCtr := rfl
@[simp] theorem carryAppend_seedSector (s : State) (d : Bytes) : (s.carryAppend d).seedSector = s.seedSector := rfl
@[simp] theorem carryAppend_carry (s : State) (d : Bytes) : (s.carryAppend d).carry = s.carry ++ d := rfl
@[simp] theorem carryAppend_pos (s : State) (d : Bytes) : (s.carryAppend d).pos = s.pos := rfl
@[simp] theorem carryAppend_blkIdx (s : State) (d : Bytes) : (s.carryAppend d).blkIdx = s.blkIdx := rfl
@[simp] theorem carryAppend_sticky (s : State) (d : Bytes) : (s.carryAppend d).sticky = s.sticky := rfl
@[simp] theorem carryAppend_inbox (s : State) (d : Bytes) : (s.carryAppend d).inbox = s.inbox := rfl
@[simp] theorem carryAppend_outbox (s : State) (d : Bytes) : (s.carryAppend d).outbox = s.outbox := rfl

/-! `carryTake` -/

@[simp] theorem carryTake_prim (s : State) (n : Nat) : (s.carryTake n).2.prim = s.prim := rfl
@[simp] theorem carryTake_phase (s : State) (n : Nat) : (s.carryTake n).2.phase = s.phase := rfl
@[simp] theorem carryTake_mode (s : State) (n : Nat) : (s.carryTake n).2.mode = s.mode := rfl
@[simp] theorem carryTake_k1 (s : State) (n : Nat) : (s.carryTake n).2.k1 = s.k1 := rfl
@[simp] theorem carryTake_k2 (s : State) (n : Nat) : (s.carryTake n).2.k2 = s.k2 := rfl
@[simp] theorem carryTake_prev (s : State) (n : Nat) : (s.carryTake n).2.prev = s.prev := rfl
@[simp] theorem carryTake_ctr (s : State) (n : Nat) : (s.carryTake n).2.ctr = s.ctr := rfl
@[simp] theorem carryTake_tweak (s : State) (n : Nat) : (s.carryTake n).2.tweak = s.tweak := rfl
@[simp] theorem carryTake_seedIv (s : State) (n : Nat) : (s.carryTake n).2.seedIv = s.seedIv := rfl
@[simp] theorem carryTake_seedCtr (s : State) (n : Nat) : (s.carryTake n).2.seedCtr = s.seedCtr := rfl
@[simp] theorem carryTake_seedSector (s : State) (n : Nat) : (s.carryTake n).2.seedSector = s.seedSector := rfl
@[simp] theorem carryTake_carry (s : State) (n : Nat) : (s.carryTake n).2.carry = s.carry.drop n := rfl
@[simp] theorem carryTake_pos (s : State) (n : Nat) : (s.carryTake n).2.pos = s.pos := rfl
@[simp] theorem carryTake_blkIdx (s : State) (n : Nat) : (s.carryTake n).2.blkIdx = s.blkIdx := rfl
@[simp] theorem carryTake_sticky (s : State) (n : Nat) : (s.carryTake n).2.sticky = s.sticky := rfl
@[simp] theorem carryTake_inbox (s : State) (n : Nat) : (s.carryTake n).2.inbox = s.inbox := rfl
@[simp] theorem carryTake_outbox (s : State) (n : Nat) : (s.carryTake n).2.outbox = s.outbox := rfl
@[simp] theorem carryTake_fst (s : State) (n : Nat) : (s.carryTake n).1 = s.carry.take n := rfl

/-! `seed` -/

@[simp] theorem seed_prim (s : State) : s.seed.prim = s.prim := rfl
@[simp] theorem seed_phase (s : State) : s.seed.phase = .ready := rfl
@[simp] theorem seed_mode (s : State) : s.seed.mode = s.mode := rfl
@[simp] theorem seed_k1 (s : State) : s.seed.k1 = s.k1 := rfl
@[simp] theorem seed_k2 (s : State) : s.seed.k2 = s.k2 := rfl
@[simp] theorem seed_prev (s : State) : s.seed.prev = s.seedIv := rfl
@[simp] theorem seed_ctr (s : State) : s.seed.ctr = s.seedCtr := rfl
@[simp] theorem seed_tweak (s : State) : s.seed.tweak = if s.mode = .xts then E s.prim s.k2 s.seedSector else zeros 16 := rfl
@[simp] theorem seed_seedIv (s : State) : s.seed.seedIv = s.seedIv := rfl
@[simp] theorem seed_seedCtr (s : State) : s.seed.seedCtr = s.seedCtr := rfl
@[simp] theorem seed_seedSector (s : State) : s.seed.seedSector = s.seedSector := rfl
@[simp] theorem seed_carry (s : State) : s.seed.carry = [] := rfl
@[simp] theorem seed_pos (s : State) : s.seed.pos = 0 := rfl
@[simp] theorem seed_blkIdx (s : State) : s.seed.blkIdx = 0 := rfl
@[simp] theorem seed_sticky (s : State) : s.seed.sticky = s.sticky := rfl
@[simp] theorem seed_inbox (s : State) : s.seed.inbox = s.inbox := rfl
@[simp] theorem seed_outbox (s : State) : s.seed.outbox = s.outbox := rfl

/-! `cleared` -/

@[simp] theorem cleared_prim (s : State) : s.cleared.prim = s.prim := rfl
@[simp] theorem cleared_phase (s : State) : s.cleared.phase = .idle := rfl
@[simp] theorem cleared_mode (s : State) : s.cleared.mode = .ecb := rfl
@[simp] theorem cleared_k1 (s : State) : s.cleared.k1 = [] := rfl
@[simp] theorem cleared_k2 (s : State) : s.cleared.k2 = [] := rfl
@[simp] theorem cleared_prev (s : State) : s.cleared.prev = zeros s.bs := rfl
@[simp] theorem cleared_ctr (s : State) : s.cleared.ctr = zeros s.bs := rfl
@[simp] theorem cleared_tweak (s : State) : s.cleared.tweak = zeros 16 := rfl
@[simp] theorem cleared_seedIv (s : State) : s.cleared.seedIv = zeros s.bs := rfl
@[simp] theorem cleared_seedCtr (s : State) : s.cleared.seedCtr = zeros s.bs := rfl
@[simp] theorem cleared_seedSector (s : State) : s.cleared.seedSector = zeros 16 := rfl
@[simp] theorem cleared_carry (s : State) : s.cleared.carry = [] := rfl
@[simp] theorem cleared_pos (s : State) : s.cleared.pos = 0 := rfl
@[simp] theorem cleared_blkIdx (s : State) : s.cleared.blkIdx = 0 := rfl
@[simp] theorem cleared_sticky (s : State) : s.cleared.sticky = s.sticky := rfl
@[simp] theorem cleared_inbox (s : State) : s.cleared.inbox = s.inbox := rfl
@[simp] theorem cleared_outbox (s : State) : s.cleared.outbox = s.outbox := rfl

/-! `hardwareReset` -/

@[simp] theorem hardwareReset_prim (s : State) : s.hardwareReset.prim = s.prim := rfl
@[simp] theorem hardwareReset_phase (s : State) : s.hardwareReset.phase = .idle := rfl
@[simp] theorem hardwareReset_mode (s : State) : s.hardwareReset.mode = .ecb := rfl
@[simp] theorem hardwareReset_k1 (s : State) : s.hardwareReset.k1 = [] := rfl
@[simp] theorem hardwareReset_k2 (s : State) : s.hardwareReset.k2 = [] := rfl
@[simp] theorem hardwareReset_prev (s : State) : s.hardwareReset.prev = zeros s.bs := rfl
@[simp] theorem hardwareReset_ctr (s : State) : s.hardwareReset.ctr = zeros s.bs := rfl
@[simp] theorem hardwareReset_tweak (s : State) : s.hardwareReset.tweak = zeros 16 := rfl
@[simp] theorem hardwareReset_seedIv (s : State) : s.hardwareReset.seedIv = zeros s.bs := rfl
@[simp] theorem hardwareReset_seedCtr (s : State) : s.hardwareReset.seedCtr = zeros s.bs := rfl
@[simp] theorem hardwareReset_seedSector (s : State) : s.hardwareReset.seedSector = zeros 16 := rfl
@[simp] theorem hardwareReset_carry (s : State) : s.hardwareReset.carry = [] := rfl
@[simp] theorem hardwareReset_pos (s : State) : s.hardwareReset.pos = 0 := rfl
@[simp] theorem hardwareReset_blkIdx (s : State) : s.hardwareReset.blkIdx = 0 := rfl
@[simp] theorem hardwareReset_sticky (s : State) : s.hardwareReset.sticky = 0 := rfl
@[simp] theorem hardwareReset_inbox (s : State) : s.hardwareReset.inbox = s.inbox := rfl
@[simp] theorem hardwareReset_outbox (s : State) : s.hardwareReset.outbox = s.outbox := rfl

/-! The block size -/

@[simp] theorem respond_bs (s : State) (out : Bytes) : (s.respond out).bs = s.bs := rfl
@[simp] theorem raise_bs (s : State) (e : Error) : (s.raise e).bs = s.bs := rfl
@[simp] theorem carryAppend_bs (s : State) (d : Bytes) : (s.carryAppend d).bs = s.bs := rfl
@[simp] theorem carryTake_bs (s : State) (n : Nat) : (s.carryTake n).2.bs = s.bs := rfl
@[simp] theorem seed_bs (s : State) : s.seed.bs = s.bs := rfl
@[simp] theorem cleared_bs (s : State) : s.cleared.bs = s.bs := rfl
@[simp] theorem hardwareReset_bs (s : State) : s.hardwareReset.bs = s.bs := rfl

end Sys2Proof.Machine.State
end

