-- ==== Sys2Proof/Laws/Stream.lean ====
section
/-! SUPPORT. Laws of the streaming machine: what a block operation may write, the loop of `Consume` as a run over
whole blocks, and the sum of two runs. -/

namespace Sys2Proof.Machine

/-- The three chaining registers (`10_state.md` R23 to R25). -/
structure Chain where
  prev  : Bytes
  ctr   : Bytes
  tweak : Bytes

/-- The chaining registers of a state. -/
def State.chain (s : State) : Chain := ⟨s.prev, s.ctr, s.tweak⟩

/-- The state with other chaining registers, carry buffer and block count: all that processing blocks writes. -/
def State.moved (s : State) (c : Chain) (carry : Bytes) (blkIdx : Nat) : State :=
  { s with prev := c.prev, ctr := c.ctr, tweak := c.tweak, carry := carry, blkIdx := blkIdx }

@[simp] theorem moved_prim (s : State) (c : Chain) (b : Bytes) (n : Nat) : (s.moved c b n).prim = s.prim := rfl
@[simp] theorem moved_phase (s : State) (c : Chain) (b : Bytes) (n : Nat) : (s.moved c b n).phase = s.phase := rfl
@[simp] theorem moved_mode (s : State) (c : Chain) (b : Bytes) (n : Nat) : (s.moved c b n).mode = s.mode := rfl
@[simp] theorem moved_k1 (s : State) (c : Chain) (b : Bytes) (n : Nat) : (s.moved c b n).k1 = s.k1 := rfl
@[simp] theorem moved_k2 (s : State) (c : Chain) (b : Bytes) (n : Nat) : (s.moved c b n).k2 = s.k2 := rfl
@[simp] theorem moved_prev (s : State) (c : Chain) (b : Bytes) (n : Nat) : (s.moved c b n).prev = c.prev := rfl
@[simp] theorem moved_ctr (s : State) (c : Chain) (b : Bytes) (n : Nat) : (s.moved c b n).ctr = c.ctr := rfl
@[simp] theorem moved_tweak (s : State) (c : Chain) (b : Bytes) (n : Nat) : (s.moved c b n).tweak = c.tweak := rfl
@[simp] theorem moved_seedIv (s : State) (c : Chain) (b : Bytes) (n : Nat) : (s.moved c b n).seedIv = s.seedIv := rfl
@[simp] theorem moved_seedCtr (s : State) (c : Chain) (b : Bytes) (n : Nat) : (s.moved c b n).seedCtr = s.seedCtr := rfl
@[simp] theorem moved_seedSector (s : State) (c : Chain) (b : Bytes) (n : Nat) : (s.moved c b n).seedSector = s.seedSector := rfl
@[simp] theorem moved_carry (s : State) (c : Chain) (b : Bytes) (n : Nat) : (s.moved c b n).carry = b := rfl
@[simp] theorem moved_pos (s : State) (c : Chain) (b : Bytes) (n : Nat) : (s.moved c b n).pos = s.pos := rfl
@[simp] theorem moved_blkIdx (s : State) (c : Chain) (b : Bytes) (n : Nat) : (s.moved c b n).blkIdx = n := rfl
@[simp] theorem moved_sticky (s : State) (c : Chain) (b : Bytes) (n : Nat) : (s.moved c b n).sticky = s.sticky := rfl
@[simp] theorem moved_inbox (s : State) (c : Chain) (b : Bytes) (n : Nat) : (s.moved c b n).inbox = s.inbox := rfl
@[simp] theorem moved_outbox (s : State) (c : Chain) (b : Bytes) (n : Nat) : (s.moved c b n).outbox = s.outbox := rfl
@[simp] theorem moved_bs (s : State) (c : Chain) (b : Bytes) (n : Nat) : (s.moved c b n).bs = s.bs := rfl
@[simp] theorem moved_chain (s : State) (c : Chain) (b : Bytes) (n : Nat) : (s.moved c b n).chain = c := rfl
@[simp] theorem moved_moved (s : State) (c d : Chain) (b b' : Bytes) (n n' : Nat) :
    (s.moved c b n).moved d b' n' = s.moved d b' n' := rfl
@[simp] theorem moved_self (s : State) : s.moved s.chain s.carry s.blkIdx = s := rfl

/-- The chaining registers after the block operation of a mode and direction on block `x`
(`42_ecb.md` to `46_xts.md`). -/
def chainNext (dir : Dir) (mode : Mode) (p : Primitive) (k x : Bytes) (c : Chain) : Chain :=
  match mode, dir with
  | .ecb, _ => c
  | .cbc, .encrypt => { c with prev := E p k (xorB x c.prev) }
  | .cbc, .decrypt => { c with prev := x }
  | .cfb, .encrypt => { c with prev := xorB (E p k c.prev) x }
  | .cfb, .decrypt => { c with prev := x }
  | .ofb, _ => { c with prev := E p k c.prev }
  | .ctr, _ => { c with ctr := inc c.ctr }
  | .xts, _ => { c with tweak := mulAlpha c.tweak }

/-- The output block of the block operation (`42_ecb.md` to `46_xts.md`). -/
def chainOut (dir : Dir) (mode : Mode) (p : Primitive) (k x : Bytes) (c : Chain) : Bytes :=
  match mode, dir with
  | .ecb, .encrypt => E p k x
  | .ecb, .decrypt => D p k x
  | .cbc, .encrypt => E p k (xorB x c.prev)
  | .cbc, .decrypt => xorB (D p k x) c.prev
  | .cfb, _ => xorB (E p k c.prev) x
  | .ofb, _ => xorB x (E p k c.prev)
  | .ctr, _ => xorB x (E p k c.ctr)
  | .xts, .encrypt => xorB (E p k (xorB x c.tweak)) c.tweak
  | .xts, .decrypt => xorB (D p k (xorB x c.tweak)) c.tweak

/-- A block operation reads and writes the chaining registers and nothing else (`41_engine_commands.md` R98). -/
theorem modeBlock_eq (dir : Dir) (x : Bytes) (s : State) :
    modeBlock dir x s = (chainOut dir s.mode s.prim s.k1 x s.chain,
      s.moved (chainNext dir s.mode s.prim s.k1 x s.chain) s.carry s.blkIdx) := by
  cases hm : s.mode <;> cases dir <;> simp only [modeBlock, hm] <;> rfl

/-- `BlockOp`: the block operation, and `BLKIDX` one more (`41_engine_commands.md` R98). -/
theorem blockOp_eq (dir : Dir) (x : Bytes) (s : State) :
    blockOp dir x s = (chainOut dir s.mode s.prim s.k1 x s.chain,
      s.moved (chainNext dir s.mode s.prim s.k1 x s.chain) s.carry (s.blkIdx + 1)) := by
  simp only [blockOp, modeBlock_eq]
  rfl

/-- The chaining registers after the first `n` blocks of `m`. -/
def chainAfter (dir : Dir) (mode : Mode) (p : Primitive) (k : Bytes) : Nat → Bytes → Chain → Chain
  | 0, _, c => c
  | n + 1, m, c => chainAfter dir mode p k n (m.drop p.blockSize)
      (chainNext dir mode p k (m.take p.blockSize) c)

/-- The output of the first `n` blocks of `m`. -/
def chainOuts (dir : Dir) (mode : Mode) (p : Primitive) (k : Bytes) : Nat → Bytes → Chain → Bytes
  | 0, _, _ => []
  | n + 1, m, c => chainOut dir mode p k (m.take p.blockSize) c ++
      chainOuts dir mode p k n (m.drop p.blockSize) (chainNext dir mode p k (m.take p.blockSize) c)

/-- How many blocks `Consume` processes with `len` bytes in the buffer (`41_engine_commands.md` R94). -/
def readyBlocks (mode : Mode) (bs len : Nat) : Nat := if mode = .xts then len / bs - 1 else len / bs

theorem readyBlocks_mul_le (mode : Mode) (bs len : Nat) : readyBlocks mode bs len * bs ≤ len := by
  have h := Nat.div_mul_le_self len bs
  unfold readyBlocks
  split
  · exact le_trans (Nat.mul_le_mul_right bs (Nat.sub_le _ _)) h
  · exact h

/-- The hold test of the loop is: at least one block is ready. -/
theorem hold_le_iff (s : State) (hbs : 1 ≤ s.bs) :
    s.hold ≤ s.carry.length ↔ 1 ≤ readyBlocks s.mode s.bs s.carry.length := by
  unfold State.hold readyBlocks
  split
  · have h2 := Nat.le_div_iff_mul_le (x := 2) (y := s.carry.length) hbs
    omega
  · rw [Nat.le_div_iff_mul_le hbs, Nat.one_mul]

theorem readyBlocks_sub (mode : Mode) {bs len : Nat} (hbs : 1 ≤ bs) (h : 1 ≤ readyBlocks mode bs len) :
    readyBlocks mode bs (len - bs) + 1 = readyBlocks mode bs len := by
  have hle : bs ≤ len := le_trans (Nat.le_mul_of_pos_left bs h) (readyBlocks_mul_le mode bs len)
  have hd : len / bs = (len - bs) / bs + 1 := Nat.div_eq_sub_div hbs hle
  unfold readyBlocks at *
  split at h
  · rename_i hm
    simp only [hm, if_true] at *
    omega
  · rename_i hm
    simp only [hm, if_false] at *
    omega

/-- The state after the first `n` blocks of the carry buffer are taken and processed. -/
def State.processed (s : State) (dir : Dir) (n : Nat) : State :=
  s.moved (chainAfter dir s.mode s.prim s.k1 n s.carry s.chain) (s.carry.drop (n * s.bs)) (s.blkIdx + n)

/-- The loop of `Consume` processes the ready blocks and leaves the rest (`41_engine_commands.md` R94). -/
theorem consumeLoop_eq (dir : Dir) : ∀ (fuel : Nat) (s : State), 1 ≤ s.bs →
    readyBlocks s.mode s.bs s.carry.length ≤ fuel →
    consumeLoop dir fuel s =
      (chainOuts dir s.mode s.prim s.k1 (readyBlocks s.mode s.bs s.carry.length) s.carry s.chain,
       s.processed dir (readyBlocks s.mode s.bs s.carry.length)) := by
  intro fuel
  induction fuel with
  | zero =>
    intro s _ hf
    simp [Nat.le_zero.mp hf, consumeLoop, chainOuts, chainAfter, State.processed]
  | succ fuel ih =>
    intro s hbs hf
    by_cases hh : s.hold ≤ s.carry.length
    · have h1 := (hold_le_iff s hbs).mp hh
      have hs := readyBlocks_sub s.mode hbs h1
      have hb : blockOp dir (s.carryTake s.bs).1 (s.carryTake s.bs).2 =
          (chainOut dir s.mode s.prim s.k1 (s.carry.take s.bs) s.chain,
           s.moved (chainNext dir s.mode s.prim s.k1 (s.carry.take s.bs) s.chain) (s.carry.drop s.bs)
             (s.blkIdx + 1)) := by
        rw [blockOp_eq]; rfl
      have hl : (s.carry.drop s.bs).length = s.carry.length - s.bs := List.length_drop
      simp only [consumeLoop, if_pos hh, hb]
      rw [ih (s.moved _ (s.carry.drop s.bs) (s.blkIdx + 1)) hbs
        (by simp only [moved_mode, moved_carry, moved_bs, hl]; omega)]
      simp only [State.processed, moved_mode, moved_carry, moved_bs, moved_prim, moved_k1, moved_chain, moved_moved,
        moved_blkIdx, hl]
      generalize readyBlocks s.mode s.bs (s.carry.length - s.bs) = n at hs
      rw [← hs]
      simp only [chainOuts, chainAfter, List.drop_drop, Prod.mk.injEq, true_and]
      rw [show s.bs + n * s.bs = (n + 1) * s.bs by ring, show s.blkIdx + 1 + n = s.blkIdx + (n + 1) by omega]
    · have h0 : readyBlocks s.mode s.bs s.carry.length = 0 := by
        have := mt (hold_le_iff s hbs).mpr hh
        omega
      simp [consumeLoop, if_neg hh, h0, chainOuts, chainAfter, State.processed]

/-- `Consume` processes the ready blocks and leaves the rest (`41_engine_commands.md` R94). -/
theorem consume_eq (dir : Dir) (s : State) (hbs : 1 ≤ s.bs) :
    consume dir s =
      (chainOuts dir s.mode s.prim s.k1 (readyBlocks s.mode s.bs s.carry.length) s.carry s.chain,
       s.processed dir (readyBlocks s.mode s.bs s.carry.length)) :=
  consumeLoop_eq dir _ s hbs (by
    have := readyBlocks_mul_le s.mode s.bs s.carry.length
    exact le_trans (Nat.le_mul_of_pos_right _ hbs) this)

/-- Two runs of blocks are one: the chaining registers. -/
theorem chainAfter_add (dir : Dir) (mode : Mode) (p : Primitive) (k : Bytes) (a b : Nat) (m : Bytes) (c : Chain) :
    chainAfter dir mode p k (a + b) m c =
      chainAfter dir mode p k b (m.drop (a * p.blockSize)) (chainAfter dir mode p k a m c) := by
  induction a generalizing m c with
  | zero => simp [chainAfter]
  | succ a ih =>
    rw [show a + 1 + b = a + b + 1 by omega]
    simp only [chainAfter, ih, List.drop_drop]
    rw [show p.blockSize + a * p.blockSize = (a + 1) * p.blockSize by ring]

/-- Two runs of blocks are one: the output. -/
theorem chainOuts_add (dir : Dir) (mode : Mode) (p : Primitive) (k : Bytes) (a b : Nat) (m : Bytes) (c : Chain) :
    chainOuts dir mode p k (a + b) m c =
      chainOuts dir mode p k a m c ++
        chainOuts dir mode p k b (m.drop (a * p.blockSize)) (chainAfter dir mode p k a m c) := by
  induction a generalizing m c with
  | zero => simp [chainOuts, chainAfter]
  | succ a ih =>
    rw [show a + 1 + b = a + b + 1 by omega]
    simp only [chainOuts, chainAfter, ih, List.drop_drop, List.append_assoc]
    rw [show p.blockSize + a * p.blockSize = (a + 1) * p.blockSize by ring]

/-- Only the first `n` blocks matter: the chaining registers. -/
theorem chainAfter_append (dir : Dir) (mode : Mode) (p : Primitive) (k : Bytes) (n : Nat) (m m' : Bytes) (c : Chain)
    (h : n * p.blockSize ≤ m.length) :
    chainAfter dir mode p k n (m ++ m') c = chainAfter dir mode p k n m c := by
  induction n generalizing m c with
  | zero => rfl
  | succ n ih =>
    rw [Nat.add_mul, Nat.one_mul] at h
    have hb : p.blockSize ≤ m.length := by omega
    simp only [chainAfter, List.take_append_of_le_length hb, List.drop_append_of_le_length hb]
    exact ih _ _ (by simp only [List.length_drop]; omega)

/-- Only the first `n` blocks matter: the output. -/
theorem chainOuts_append (dir : Dir) (mode : Mode) (p : Primitive) (k : Bytes) (n : Nat) (m m' : Bytes) (c : Chain)
    (h : n * p.blockSize ≤ m.length) :
    chainOuts dir mode p k n (m ++ m') c = chainOuts dir mode p k n m c := by
  induction n generalizing m c with
  | zero => rfl
  | succ n ih =>
    rw [Nat.add_mul, Nat.one_mul] at h
    have hb : p.blockSize ≤ m.length := by omega
    simp only [chainOuts, List.take_append_of_le_length hb, List.drop_append_of_le_length hb]
    rw [ih _ _ (by simp only [List.length_drop]; omega)]

end Sys2Proof.Machine
end

