-- ==== Sys2Proof/Laws/Exec.lean ====
section
/-! SUPPORT. What one command and one step can do, said once: `exec` by family, the check order of CONSTRUCT against
the words of `Safety.lean`, and the inversion of `step`. -/

namespace Sys2Proof.Machine

theorem exec_constructInstr (mode : Mode) (key iv ctr sector : Bytes) (s : State) :
    exec (constructInstr mode key iv ctr sector) s = .next (construct mode key iv ctr sector s) := by
  cases mode <;> rfl

theorem exec_dataInstr (dir : Dir) (last : Bool) (data : Bytes) (s : State) :
    exec (dataInstr dir last data) s = .next (dataCommand dir last data s) := by
  cases dir <;> cases last <;> rfl

/-- The families of commands (`30_encoding.md` R68, R75). -/
theorem instr_cases (i : Instr) :
    (∃ mode key iv ctr sector, i = constructInstr mode key iv ctr sector) ∨
    (∃ dir last data, i = dataInstr dir last data) ∨ i = .restart ∨ i = .destroy ∨ ∃ n, i = .sr n := by
  cases i with
  | constructEcb key iv ctr sector => exact .inl ⟨.ecb, key, iv, ctr, sector, rfl⟩
  | constructCbc key iv ctr sector => exact .inl ⟨.cbc, key, iv, ctr, sector, rfl⟩
  | constructCfb key iv ctr sector => exact .inl ⟨.cfb, key, iv, ctr, sector, rfl⟩
  | constructOfb key iv ctr sector => exact .inl ⟨.ofb, key, iv, ctr, sector, rfl⟩
  | constructCtr key iv ctr sector => exact .inl ⟨.ctr, key, iv, ctr, sector, rfl⟩
  | constructXts key iv ctr sector => exact .inl ⟨.xts, key, iv, ctr, sector, rfl⟩
  | enc data => exact .inr (.inl ⟨.encrypt, false, data, rfl⟩)
  | encLast data => exact .inr (.inl ⟨.encrypt, true, data, rfl⟩)
  | dec data => exact .inr (.inl ⟨.decrypt, false, data, rfl⟩)
  | decLast data => exact .inr (.inl ⟨.decrypt, true, data, rfl⟩)
  | restart => exact .inr (.inr (.inl rfl))
  | destroy => exact .inr (.inr (.inr (.inl rfl)))
  | sr n => exact .inr (.inr (.inr (.inr ⟨n, rfl⟩)))

/-! Errors -/

theorem error_code_pos (e : Error) : 1 ≤ e.code := by cases e <;> decide

theorem error_code_le (e : Error) : e.code ≤ 7 := by cases e <;> decide

theorem error_code_word_ne (e : Error) : BitVec.ofNat 32 e.code ≠ 0 := by cases e <;> decide

/-- Raising an error in the words of `Safety.lean`. -/
theorem raise_eq_errored (s : State) (e : Error) : s.raise e = s.errored e.code := rfl

theorem respond_eq (s : State) (out : Bytes) : s.respond out = { s with outbox := s.outbox ++ [okAnswer out] } := rfl

theorem okAnswer_ne_errorAnswer (out : Bytes) {n : Nat} (h1 : 1 ≤ n) (h7 : n ≤ 7) : okAnswer out ≠ errorAnswer n := by
  intro h
  simp only [okAnswer, errorAnswer, Answer.response.injEq] at h
  have := congrArg BitVec.toNat h.1
  interval_cases n <;> exact absurd this (by decide)

theorem errorAnswer_injective {m n : Nat} (hm : m ≤ 7) (hn : n ≤ 7) (h : errorAnswer m = errorAnswer n) : m = n := by
  simp only [errorAnswer, Answer.response.injEq] at h
  have := congrArg BitVec.toNat h.1
  simp only [BitVec.toNat_ofNat] at this
  omega

/-- An error sets its own bit of `STICKY` and keeps the others (`60_exceptions.md` R164). -/
theorem stickyWith_getLsbD (sticky : BitVec 8) (e : Error) {n : Nat} (hn : n ≤ 7) :
    (stickyWith sticky e).getLsbD n = (sticky.getLsbD n || decide (e.code = n)) := by
  cases e <;> interval_cases n <;> simp [stickyWith, Error.code]

/-! CONSTRUCT -/

theorem accepts_iff (p : Primitive) (n : Nat) : p.accepts n = true ↔ 1 ≤ n ∧ n ∈ p.keySizes := by
  simp [Primitive.accepts, Nat.one_le_iff_ne_zero]

theorem keyAccepted_iff (p : Primitive) (mode : Mode) (key : Bytes) :
    keyAccepted p mode key = true ↔ KeyLengthAccepted p mode key := by
  cases mode <;> simp [keyAccepted, KeyLengthAccepted]

/-- The checks of CONSTRUCT, in the order of the spec's table, are those of `Safety.lean`
(`41_engine_commands.md` R91, `60_exceptions.md` R171). -/
theorem constructError_eq (p : Primitive) (mode : Mode) (key iv ctr sector : Bytes) :
    (¬ KeyLengthAccepted p mode key ∧ constructError p mode key iv ctr sector = some .invalidKeyLength) ∨
    (KeyLengthAccepted p mode key ∧ OperandUnsupported p.blockSize mode iv ctr sector ∧
      constructError p mode key iv ctr sector = some .unsupportedModeParameter) ∨
    (KeyLengthAccepted p mode key ∧ ¬ OperandUnsupported p.blockSize mode iv ctr sector ∧
      IvLengthWrong p.blockSize mode iv ∧ ¬ CounterLengthWrong p.blockSize mode ctr ∧
      constructError p mode key iv ctr sector = some .invalidIVLength) ∨
    (KeyLengthAccepted p mode key ∧ ¬ OperandUnsupported p.blockSize mode iv ctr sector ∧
      ¬ IvLengthWrong p.blockSize mode iv ∧ CounterLengthWrong p.blockSize mode ctr ∧
      constructError p mode key iv ctr sector = some .invalidCounterLength) ∨
    (ConstructAccepted p mode key iv ctr sector ∧ constructError p mode key iv ctr sector = none) := by
  by_cases hk : KeyLengthAccepted p mode key
  · have hk' := (keyAccepted_iff p mode key).mpr hk
    by_cases hi : iv = [] <;> by_cases hc : ctr = [] <;> by_cases hs : sector = [] <;> cases mode <;>
      simp [constructError, hk, hk', hi, hc, hs, OperandUnsupported, IvLengthWrong, CounterLengthWrong,
        ConstructAccepted, takesIv, List.length_pos_iff] <;>
      first
        | omega
        | (by_cases hb : p.blockSize = 16 <;> by_cases hn : sector.length = 16 <;> simp [hb, hn])
  · have hk' : keyAccepted p mode key = false := by
      rw [← Bool.not_eq_true, keyAccepted_iff]; exact hk
    exact .inl ⟨hk, by simp [constructError, hk']⟩

/-! A step -/

/-- All that a step can be (`41_engine_commands.md` R90, `70_reset_and_hazards.md` R190, `60_exceptions.md` R168). -/
theorem step_cases (s : State) :
    (s.inbox = [] ∧ step s = .next s) ∨
    (∃ rest, s.inbox = .hardwareReset :: rest ∧ step s = .next { s with inbox := rest }.hardwareReset) ∨
    (∃ r rest i, s.inbox = .request r :: rest ∧ decode r = .ok i ∧ step s = exec i { s with inbox := rest }) ∨
    (∃ r rest e, s.inbox = .request r :: rest ∧ decode r = .error e ∧
      step s = .next ({ s with inbox := rest }.raise .illegalCommand)) := by
  cases hin : s.inbox with
  | nil => exact .inl ⟨rfl, by simp [step, hin]⟩
  | cons event rest =>
    cases event with
    | hardwareReset => exact .inr (.inl ⟨rest, rfl, by simp [step, hin]⟩)
    | request r =>
      cases hd : decode r with
      | ok i => exact .inr (.inr (.inl ⟨r, rest, i, rfl, hd, by simp [step, hin, hd]⟩))
      | error e => exact .inr (.inr (.inr ⟨r, rest, e, rfl, hd, by simp [step, hin, hd]⟩))

end Sys2Proof.Machine
end

