-- ==== Sys2Proof/Laws/Data.lean ====
section
/-! SUPPORT. The spec lemmas of `Flush` and of a whole data command: what each gives out and everything it writes. -/

namespace Sys2Proof.Machine

/-- A run of blocks, block by block: the chaining registers. -/
theorem chainAfter_succ (dir : Dir) (mode : Mode) (p : Primitive) (k : Bytes) (n : Nat) (m : Bytes) (c : Chain) :
    chainAfter dir mode p k (n + 1) m c =
      chainNext dir mode p k (blockAt p.blockSize m n) (chainAfter dir mode p k n m c) := by
  rw [chainAfter_add]
  rfl

/-- A run of blocks, block by block: the output. -/
theorem chainOuts_eq_blocksOut (dir : Dir) (mode : Mode) (p : Primitive) (k : Bytes) (n : Nat) (m : Bytes)
    (c : Chain) :
    chainOuts dir mode p k n m c =
      blocksOut n fun j => chainOut dir mode p k (blockAt p.blockSize m j) (chainAfter dir mode p k j m c) := by
  induction n with
  | zero => rfl
  | succ n ih =>
    rw [chainOuts_add, ih, blocksOut, blocksOut, List.range_succ, List.flatMap_append]
    simp [chainOuts, blockAt]

theorem blocksOut_congr {n : Nat} {f g : Nat → Bytes} (h : ∀ j, j < n → f j = g j) : blocksOut n f = blocksOut n g :=
  List.flatMap_congr (fun j hj => h j (List.mem_range.mp hj))

/-- What `Flush` gives out for the bytes `x` that wait in the carry buffer (`41_engine_commands.md` R96). -/
def flushOut (dir : Dir) (mode : Mode) (p : Primitive) (k x : Bytes) (c : Chain) : Bytes :=
  match mode with
  | .ecb | .cbc => []
  | .cfb => xorB ((E p k c.prev).take x.length) x
  | .ofb => xorB ((E p k c.prev).take x.length) x
  | .ctr => xorB ((E p k c.ctr).take x.length) x
  | .xts =>
    if x.length = p.blockSize then chainOut dir .xts p k x c
    else
      let n := x.length - 16
      let t0 := c.tweak
      let t1 := mulAlpha t0
      match dir with
      | .encrypt =>
        let cc := chainOut .encrypt .xts p k (x.take 16) c
        chainOut .encrypt .xts p k (x.drop 16 ++ cc.drop n) { c with tweak := t1 } ++ cc.take n
      | .decrypt =>
        let pp := chainOut .decrypt .xts p k (x.take 16) { c with tweak := t1 }
        chainOut .decrypt .xts p k (x.drop 16 ++ pp.drop n) c ++ pp.take n

/-- The chaining registers after `Flush`. -/
def flushChain (mode : Mode) (p : Primitive) (k x : Bytes) (c : Chain) : Chain :=
  match mode with
  | .ecb | .cbc | .cfb => c
  | .ofb => if x.length = 0 then c else { c with prev := E p k c.prev }
  | .ctr => if x.length = 0 then c else { c with ctr := inc c.ctr }
  | .xts =>
    if x.length = p.blockSize then { c with tweak := mulAlpha c.tweak }
    else { c with tweak := mulAlpha (mulAlpha c.tweak) }

/-- The carry buffer after `Flush`: ECB and CBC leave what waits. -/
def flushCarry (mode : Mode) (x : Bytes) : Bytes :=
  match mode with
  | .ecb | .cbc => x
  | .cfb | .ofb | .ctr | .xts => []

/-- How many complete blocks `Flush` counts: the last one of an XTS sector. -/
def flushBlocks (mode : Mode) : Nat := if mode = .xts then 1 else 0

/-- `Flush`: all it gives out and all it writes (`41_engine_commands.md` R96). -/
theorem flush_eq (dir : Dir) (s : State) :
    flush dir s = (flushOut dir s.mode s.prim s.k1 s.carry s.chain,
      s.moved (flushChain s.mode s.prim s.k1 s.carry s.chain) (flushCarry s.mode s.carry)
        (s.blkIdx + flushBlocks s.mode)) := by
  have tail_nil : ∀ k : Bytes, s.carry.length = 0 → xorB (k.take s.carry.length) s.carry = [] := by
    intro k h
    rw [List.length_eq_zero_iff.mp h, xorB_nil_right]
  have hmoved : s.carry.length = 0 → s.moved s.chain [] s.blkIdx = s := by
    intro h
    rw [← List.length_eq_zero_iff.mp h]
    rfl
  cases hm : s.mode with
  | ecb => simp only [flush, hm]; rfl
  | cbc => simp only [flush, hm]; rfl
  | cfb =>
    simp only [flush, hm, flushTail]
    split
    · rename_i h
      simp only [flushOut, flushChain, flushCarry, flushBlocks, tail_nil _ h, reduceCtorEq, if_false, Nat.add_zero,
        hmoved h]
    · simp only [State.carryTake, List.take_length, List.drop_length]; rfl
  | ofb =>
    simp only [flush, hm, flushTail]
    split
    · rename_i h
      simp only [flushOut, flushChain, flushCarry, flushBlocks, tail_nil _ h, reduceCtorEq, if_false, Nat.add_zero,
        if_pos h, hmoved h]
    · rename_i h
      simp only [State.carryTake, List.take_length, List.drop_length, flushChain, if_neg h]; rfl
  | ctr =>
    simp only [flush, hm, flushTail]
    split
    · rename_i h
      simp only [flushOut, flushChain, flushCarry, flushBlocks, tail_nil _ h, reduceCtorEq, if_false, Nat.add_zero,
        if_pos h, hmoved h]
    · rename_i h
      simp only [State.carryTake, List.take_length, List.drop_length, flushChain, if_neg h]; rfl
  | xts =>
    cases s
    simp only at hm
    subst hm
    simp only [flush, State.carryTake, List.take_length, List.drop_length, flushOut, flushChain]
    split
    · rw [blockOp_eq]; rfl
    · cases dir <;> rfl

/-- The state a data command leaves, without the response: `n` blocks of the buffered input are processed, and the
rest stays, or with LAST is flushed (`41_engine_commands.md` R93). -/
def State.streamed (s : State) (dir : Dir) (last : Bool) (data : Bytes) : State :=
  let buf := s.carry ++ data
  let n := readyBlocks s.mode s.bs buf.length
  let rest := buf.drop (n * s.bs)
  let c := chainAfter dir s.mode s.prim s.k1 n buf s.chain
  let moved := if last then
      s.moved (flushChain s.mode s.prim s.k1 rest c) (flushCarry s.mode rest) (s.blkIdx + n + flushBlocks s.mode)
    else s.moved c rest (s.blkIdx + n)
  { moved with pos := s.pos + data.length, phase := if last then .done else s.phase }

/-- The output of a data command (`41_engine_commands.md` R93). -/
def State.streamOut (s : State) (dir : Dir) (last : Bool) (data : Bytes) : Bytes :=
  let buf := s.carry ++ data
  let n := readyBlocks s.mode s.bs buf.length
  chainOuts dir s.mode s.prim s.k1 n buf s.chain ++
    if last then
      flushOut dir s.mode s.prim s.k1 (buf.drop (n * s.bs)) (chainAfter dir s.mode s.prim s.k1 n buf s.chain)
    else []

/-- An accepted data command: all it gives out and all it writes (`41_engine_commands.md` R93). -/
theorem dataEffect_eq (dir : Dir) (last : Bool) (data : Bytes) (s : State) (hbs : 1 ≤ s.bs) :
    dataEffect dir last data s = (s.streamOut dir last data, s.streamed dir last data) := by
  cases last
  · simp only [dataEffect, Bool.false_eq_true, if_false, State.streamOut, List.append_nil]
    rw [consume_eq dir _ (by exact hbs)]
    rfl
  · simp only [dataEffect, if_true, flush_eq]
    rw [consume_eq dir _ (by exact hbs)]
    rfl

/-- Whatever the block size: `Consume` writes the chaining registers, the carry buffer and the block count only. -/
theorem consumeLoop_writes (dir : Dir) (fuel : Nat) (s : State) :
    ∃ c b n, (consumeLoop dir fuel s).2 = s.moved c b n := by
  induction fuel generalizing s with
  | zero => exact ⟨s.chain, s.carry, s.blkIdx, rfl⟩
  | succ fuel ih =>
    simp only [consumeLoop]
    split
    · obtain ⟨c, b, n, h⟩ := ih (blockOp dir (s.carryTake s.bs).1 (s.carryTake s.bs).2).2
      refine ⟨c, b, n, h.trans ?_⟩
      rw [blockOp_eq]
      rfl
    · exact ⟨s.chain, s.carry, s.blkIdx, rfl⟩

/-- Whatever the block size: what an accepted data command writes (`41_engine_commands.md` R93). -/
theorem dataEffect_writes (dir : Dir) (last : Bool) (data : Bytes) (s : State) :
    ∃ c b n, (dataEffect dir last data s).2 =
      { s.moved c b n with pos := s.pos + data.length, phase := if last then .done else s.phase } := by
  obtain ⟨c, b, n, h⟩ := consumeLoop_writes dir (s.carry ++ data).length
    { s.carryAppend data with pos := s.pos + data.length }
  cases last
  · exact ⟨c, b, n, h⟩
  · simp only [dataEffect, if_true, flush_eq]
    exact ⟨_, _, _, by simp only [consume, State.carryAppend] at h ⊢; rw [h]; rfl⟩

/-- A data command in READY that is not the end of a short XTS sector. -/
theorem dataCommand_ready (dir : Dir) (last : Bool) (data : Bytes) (s : State) (hbs : 1 ≤ s.bs)
    (hp : s.phase = .ready) (hx : ¬ (s.mode = .xts ∧ last = true ∧ s.pos + data.length < s.bs)) :
    dataCommand dir last data s = (s.streamed dir last data).respond (s.streamOut dir last data) := by
  simp only [dataCommand, hp, if_true, if_neg hx, dataEffect_eq dir last data s hbs]

/-- A data command that ends a short XTS sector (`60_exceptions.md` R170). -/
theorem dataCommand_short (dir : Dir) (last : Bool) (data : Bytes) (s : State)
    (hp : s.phase = .ready) (hx : s.mode = .xts ∧ last = true ∧ s.pos + data.length < s.bs) :
    dataCommand dir last data s = s.raise .insufficientDataForXTS := by
  simp only [dataCommand, hp, if_true, if_pos hx]

/-- A data command out of phase (`60_exceptions.md` R169). -/
theorem dataCommand_phase (dir : Dir) (last : Bool) (data : Bytes) (s : State) (hp : s.phase ≠ .ready) :
    dataCommand dir last data s = s.raise .invalidState := by
  simp only [dataCommand, if_neg hp]

/-- The three ways a command ends (`60_exceptions.md` R160, R163, `30_encoding.md` R75): it is answered `OK` and keeps
`STICKY`, or it raises an error and changes nothing else, or it is a status read. -/
theorem exec_answer (i : Instr) (s : State) :
    (∃ t out, exec i s = .next t ∧ t.outbox = s.outbox ++ [okAnswer out] ∧ t.sticky = s.sticky ∧ t.prim = s.prim ∧
      t.inbox = s.inbox) ∨
    (∃ e, exec i s = .next (s.raise e)) ∨
    (∃ n, i = .sr n ∧ exec i s = .next { s with outbox := s.outbox ++ [.status (statusValue n s)] }) := by
  rcases instr_cases i with ⟨mode, key, iv, ctr, sector, rfl⟩ | ⟨dir, last, data, rfl⟩ | rfl | rfl | ⟨n, rfl⟩
  · rw [exec_constructInstr]
    unfold construct
    split <;> [split; skip]
    · exact .inr (.inl ⟨_, rfl⟩)
    · exact .inl ⟨_, [], rfl, rfl, rfl, rfl, rfl⟩
    · exact .inr (.inl ⟨_, rfl⟩)
  · rw [exec_dataInstr]
    unfold dataCommand
    split <;> [split; skip]
    · exact .inr (.inl ⟨_, rfl⟩)
    · obtain ⟨c, b, n, h⟩ := dataEffect_writes dir last data s
      refine .inl ⟨_, (dataEffect dir last data s).1, rfl, ?_, ?_, ?_, ?_⟩ <;> simp [h, okAnswer]
    · exact .inr (.inl ⟨_, rfl⟩)
  · simp only [exec, execRestart]
    split
    · exact .inr (.inl ⟨_, rfl⟩)
    · exact .inl ⟨_, [], rfl, rfl, rfl, rfl, rfl⟩
  · exact .inl ⟨_, [], rfl, rfl, rfl, rfl, rfl⟩
  · exact .inr (.inr ⟨n, rfl, rfl⟩)

end Sys2Proof.Machine
end

