-- ==== Sys2Proof/Laws/Lengths.lean ====
section
/-! SUPPORT. Lengths: of the chaining registers, of a run of blocks, of `Flush` and of a data command's output, and
what is left in the carry buffer. -/

namespace Sys2Proof.Machine

/-- The chaining registers have their widths (`10_state.md` R23 to R25, R35). -/
structure Chain.Sized (mode : Mode) (bs : Nat) (c : Chain) : Prop where
  prev : c.prev.length = bs
  ctr : c.ctr.length = bs
  tweak : c.tweak.length = 16
  xts : mode = .xts → bs = 16

/-- A block operation keeps the widths. -/
theorem Chain.Sized.next {mode : Mode} {p : Primitive} {c : Chain} (h : c.Sized mode p.blockSize) (dir : Dir)
    (k : Bytes) {x : Bytes} (hx : x.length = p.blockSize) :
    (chainNext dir mode p k x c).Sized mode p.blockSize := by
  obtain ⟨h1, h2, h3, h4⟩ := h
  cases mode <;> cases dir <;> constructor <;> simp [chainNext, h1, h2, h3, h4, hx]

/-- The output of a block operation is a block. -/
theorem Chain.Sized.length_out {mode : Mode} {p : Primitive} {c : Chain} (h : c.Sized mode p.blockSize) (dir : Dir)
    (k : Bytes) {x : Bytes} (hx : x.length = p.blockSize) :
    (chainOut dir mode p k x c).length = p.blockSize := by
  obtain ⟨h1, h2, h3, h4⟩ := h
  cases mode <;> cases dir <;> simp [chainOut, h1, h3, h4, hx]

theorem Chain.Sized.after {mode : Mode} {p : Primitive} (dir : Dir) (k : Bytes) (n : Nat) {m : Bytes} {c : Chain}
    (h : c.Sized mode p.blockSize) (hm : n * p.blockSize ≤ m.length) :
    (chainAfter dir mode p k n m c).Sized mode p.blockSize := by
  induction n generalizing m c with
  | zero => exact h
  | succ n ih =>
    rw [Nat.add_mul, Nat.one_mul] at hm
    have hx : (m.take p.blockSize).length = p.blockSize := by simp only [List.length_take]; omega
    exact ih (h.next dir k hx) (by simp only [List.length_drop]; omega)

theorem Chain.Sized.length_outs {mode : Mode} {p : Primitive} (dir : Dir) (k : Bytes) (n : Nat) {m : Bytes}
    {c : Chain} (h : c.Sized mode p.blockSize) (hm : n * p.blockSize ≤ m.length) :
    (chainOuts dir mode p k n m c).length = n * p.blockSize := by
  induction n generalizing m c with
  | zero => simp [chainOuts]
  | succ n ih =>
    rw [Nat.add_mul, Nat.one_mul] at hm ⊢
    have hx : (m.take p.blockSize).length = p.blockSize := by simp only [List.length_take]; omega
    simp only [chainOuts, List.length_append, h.length_out dir k hx]
    rw [ih (h.next dir k hx) (by simp only [List.length_drop]; omega)]
    omega

/-- What `Consume` leaves in the buffer: less than a block, or in XTS the held block and less than one more. -/
theorem rest_lt (mode : Mode) {bs : Nat} (hbs : 1 ≤ bs) (len : Nat) :
    len - readyBlocks mode bs len * bs < if mode = .xts then 2 * bs else bs := by
  have h1 := Nat.div_add_mod len bs
  have h2 := Nat.mod_lt len hbs
  rw [Nat.mul_comm] at h1
  unfold readyBlocks
  split
  · rcases Nat.eq_zero_or_pos (len / bs) with h0 | h0
    · rw [h0] at h1 ⊢
      omega
    · rw [Nat.sub_mul, Nat.one_mul]
      have := Nat.le_mul_of_pos_left bs h0
      omega
  · omega

/-- The XTS hold-back (`41_engine_commands.md` R95). -/
theorem rest_held {bs len : Nat} (hbs : 1 ≤ bs) (h : bs ≤ len) : bs ≤ len - readyBlocks .xts bs len * bs := by
  have h1 := Nat.div_mul_le_self len bs
  have h2 : 1 ≤ len / bs := (Nat.one_le_div_iff hbs).mpr h
  simp only [readyBlocks, if_true, Nat.sub_mul, Nat.one_mul]
  have := Nat.le_mul_of_pos_left bs h2
  omega

/-- How long the output of `Flush` is (`41_engine_commands.md` R96, R103). -/
theorem Chain.Sized.length_flush {mode : Mode} {p : Primitive} {c : Chain} (h : c.Sized mode p.blockSize) (dir : Dir)
    (k : Bytes) {x : Bytes} (hlt : mode ≠ .xts → x.length < p.blockSize)
    (hx : mode = .xts → p.blockSize ≤ x.length ∧ x.length < 2 * p.blockSize) :
    (flushOut dir mode p k x c).length = if mode = .ecb ∨ mode = .cbc then 0 else x.length := by
  cases mode with
  | ecb => rfl
  | cbc => rfl
  | cfb => have := hlt (by simp); simp [flushOut]; omega
  | ofb => have := hlt (by simp); simp [flushOut]; omega
  | ctr => have := hlt (by simp); simp [flushOut]; omega
  | xts =>
    have h16 := h.xts rfl
    have ht := h.tweak
    obtain ⟨ha, hb⟩ := hx rfl
    simp only [flushOut, reduceCtorEq, or_self, if_false]
    split
    · rename_i hl
      rw [h.length_out dir k hl, hl]
    · cases dir <;>
        simp only [chainOut, List.length_append, List.length_take, length_xorB, length_E, length_D,
          length_mulAlpha, ht] <;> omega

/-- The registers of a state that meets the invariant have their widths. -/
theorem State.Inv.sized {s : State} (h : s.Inv) (hp : s.phase ≠ .idle) : s.chain.Sized s.mode s.bs :=
  ⟨h.len_prev, h.len_ctr, h.len_tweak, fun hx => (h.key_xts hp hx).2⟩

/-- In XTS before the end of the sector, the position tells how much is buffered (`10_state.md` R27, R29): the sector
reaches a block exactly when the buffer does. -/
theorem State.Inv.xts_buffered {s : State} (h : s.Inv) (hp : s.phase = .ready) (hm : s.mode = .xts) (n : Nat) :
    s.bs ≤ s.pos + n ↔ s.bs ≤ s.carry.length + n := by
  have hpos := h.position hp
  have hheld := h.carry_held hm hp
  constructor
  · intro hle
    by_cases hb : s.bs ≤ s.pos
    · have := hheld hb; omega
    · rcases Nat.eq_zero_or_pos s.blkIdx with h0 | h0
      · rw [h0] at hpos; omega
      · have := Nat.le_mul_of_pos_left s.bs h0
        omega
  · omega

/-- How long the output of an accepted data command is (`41_engine_commands.md` R103). -/
theorem State.Inv.length_streamOut {s : State} (h : s.Inv) (hp : s.phase = .ready) (dir : Dir) (last : Bool)
    (data : Bytes) (hx : ¬ (s.mode = .xts ∧ last = true ∧ s.pos + data.length < s.bs)) :
    (s.streamOut dir last data).length =
      if last = false then readyBlocks s.mode s.bs (s.carry.length + data.length) * s.bs
      else if s.mode = .ecb ∨ s.mode = .cbc then (s.carry.length + data.length) / s.bs * s.bs
      else s.carry.length + data.length := by
  have hbs : 1 ≤ s.bs := h.admissible.1
  have hsz := h.sized (by rw [hp]; simp)
  have hlen : (s.carry ++ data).length = s.carry.length + data.length := List.length_append
  rw [← hlen]
  unfold State.streamOut
  generalize s.carry ++ data = buf at *
  have hle := readyBlocks_mul_le s.mode s.bs buf.length
  have hrest := rest_lt s.mode hbs buf.length
  simp only [List.length_append, hsz.length_outs dir s.k1 _ hle]
  cases last with
  | false => simp
  | true =>
    rw [if_pos rfl, Chain.Sized.length_flush (hsz.after dir s.k1 _ hle) dir s.k1
      (by intro hm; rw [if_neg hm] at hrest; rw [List.length_drop]; exact hrest)
      (by
        intro hm
        rw [if_pos hm] at hrest
        have hb := (h.xts_buffered hp hm data.length).mp (Nat.le_of_not_lt fun hlt => hx ⟨hm, rfl, hlt⟩)
        have := rest_held hbs (len := buf.length) (by omega)
        rw [hm] at hrest
        rw [List.length_drop, hm]
        exact ⟨this, hrest⟩)]
    simp only [reduceCtorEq, if_false, List.length_drop]
    split
    · rename_i hm
      have : s.mode ≠ .xts := by rcases hm with hm | hm <;> rw [hm] <;> simp
      simp [readyBlocks, this]
    · exact Nat.add_sub_of_le hle

end Sys2Proof.Machine
end

