-- ==== Sys2Proof/Laws/Chunks.lean ====
section
/-! SUPPORT. Two data commands are one: the lemma behind every statement about a message cut into pieces. -/

namespace Sys2Proof.Machine

/-- The blocks that are ready after `a` bytes, and then after `b` more, are those ready after `a + b`. -/
theorem readyBlocks_add (mode : Mode) {bs : Nat} (hbs : 1 ≤ bs) (a b : Nat) :
    readyBlocks mode bs a + readyBlocks mode bs (a - readyBlocks mode bs a * bs + b) = readyBlocks mode bs (a + b) := by
  have hle := Nat.div_mul_le_self a bs
  unfold readyBlocks
  split
  · rcases Nat.eq_zero_or_pos (a / bs) with h0 | h0
    · simp [h0]
    · obtain ⟨q, hq⟩ := Nat.exists_eq_add_of_le' h0
      rw [hq] at hle ⊢
      rw [Nat.add_mul, Nat.one_mul] at hle
      have e : a + b = bs * q + (a - q * bs + b) := by rw [Nat.mul_comm]; omega
      have h1 : 1 ≤ (a - q * bs + b) / bs := (Nat.one_le_div_iff hbs).mpr (by omega)
      rw [Nat.add_sub_cancel, e, Nat.mul_add_div hbs]
      have e2 : bs * q + (a - q * bs + b) - q * bs = a - q * bs + b := by rw [Nat.mul_comm]; omega
      omega
  · have e : a + b = bs * (a / bs) + (a - a / bs * bs + b) := by rw [Nat.mul_comm]; omega
    conv_rhs => rw [e]
    rw [Nat.mul_add_div hbs]

/-- Two data commands leave the registers of one, and give out together what the one gives out
(`41_engine_commands.md` R102). -/
theorem streamed_append (dir : Dir) (last : Bool) (a b : Bytes) (s : State) (hbs : 1 ≤ s.bs) :
    (s.streamed dir false a).streamed dir last b = s.streamed dir last (a ++ b) ∧
    s.streamOut dir false a ++ (s.streamed dir false a).streamOut dir last b = s.streamOut dir last (a ++ b) := by
  have hle : readyBlocks s.mode s.bs (s.carry ++ a).length * s.prim.blockSize ≤ (s.carry ++ a).length :=
    readyBlocks_mul_le s.mode s.bs (s.carry ++ a).length
  have hn := readyBlocks_add s.mode hbs (s.carry ++ a).length b.length
  have hafter := chainAfter_append dir s.mode s.prim s.k1 _ (s.carry ++ a) b s.chain hle
  have houts := chainOuts_append dir s.mode s.prim s.k1 _ (s.carry ++ a) b s.chain hle
  have hd := List.drop_append_of_le_length (l₂ := b) hle
  have hlen : ((s.carry ++ a).drop (readyBlocks s.mode s.bs (s.carry ++ a).length * s.prim.blockSize) ++ b).length =
      (s.carry ++ a).length - readyBlocks s.mode s.bs (s.carry ++ a).length * s.bs + b.length := by
    rw [List.length_append, List.length_drop]
  rw [← hlen, ← hd, ← List.length_append, List.append_assoc] at hn
  rw [List.append_assoc] at hafter houts hd
  have hmode : (s.streamed dir false a).mode = s.mode := rfl
  have hprim : (s.streamed dir false a).prim = s.prim := rfl
  have hk : (s.streamed dir false a).k1 = s.k1 := rfl
  have hphase : (s.streamed dir false a).phase = s.phase := rfl
  have hpos : (s.streamed dir false a).pos = s.pos + a.length := rfl
  have hbuf : (s.streamed dir false a).carry ++ b =
      (s.carry ++ (a ++ b)).drop (readyBlocks s.mode s.bs (s.carry ++ a).length * s.prim.blockSize) := hd.symm
  have hchain : (s.streamed dir false a).chain = chainAfter dir s.mode s.prim s.k1
      (readyBlocks s.mode s.bs (s.carry ++ a).length) (s.carry ++ (a ++ b)) s.chain := hafter.symm
  have hblk : (s.streamed dir false a).blkIdx = s.blkIdx + readyBlocks s.mode s.bs (s.carry ++ a).length := rfl
  have hmoved : ∀ c x n, (s.streamed dir false a).moved c x n = { s.moved c x n with pos := s.pos + a.length } :=
    fun _ _ _ => rfl
  have hout : s.streamOut dir false a = chainOuts dir s.mode s.prim s.k1
      (readyBlocks s.mode s.bs (s.carry ++ a).length) (s.carry ++ (a ++ b)) s.chain := by
    simp only [State.streamOut, Bool.false_eq_true, if_false, List.append_nil, houts]
  rw [hout]
  generalize s.streamed dir false a = t at *
  have hbs' : t.bs = s.prim.blockSize := by rw [State.bs, hprim]
  have hall : ∀ n2, readyBlocks s.mode s.bs (s.carry ++ a).length + n2 =
        readyBlocks s.mode s.bs (s.carry ++ (a ++ b)).length →
      chainAfter dir s.mode s.prim s.k1 n2
          ((s.carry ++ (a ++ b)).drop (readyBlocks s.mode s.bs (s.carry ++ a).length * s.prim.blockSize))
          (chainAfter dir s.mode s.prim s.k1 (readyBlocks s.mode s.bs (s.carry ++ a).length) (s.carry ++ (a ++ b))
            s.chain) =
        chainAfter dir s.mode s.prim s.k1 (readyBlocks s.mode s.bs (s.carry ++ (a ++ b)).length)
          (s.carry ++ (a ++ b)) s.chain ∧
      ((s.carry ++ (a ++ b)).drop (readyBlocks s.mode s.bs (s.carry ++ a).length * s.prim.blockSize)).drop
          (n2 * s.prim.blockSize) =
        (s.carry ++ (a ++ b)).drop (readyBlocks s.mode s.bs (s.carry ++ (a ++ b)).length * s.prim.blockSize) := by
    intro n2 h2
    rw [← chainAfter_add, List.drop_drop, ← Nat.add_mul, h2]
    exact ⟨rfl, rfl⟩
  obtain ⟨h1, h2⟩ := hall _ hn
  constructor
  · simp only [State.streamed, hmode, hprim, hk, hbuf, hchain, hbs', hblk, hmoved, hphase, hpos]
    rw [h1, h2, Nat.add_assoc s.blkIdx, hn, Nat.add_assoc s.pos, ← List.length_append]
    cases last <;> rfl
  · simp only [State.streamOut, hmode, hprim, hk, hbuf, hchain, hbs']
    rw [h1, h2, ← List.append_assoc, ← chainOuts_add, hn]

end Sys2Proof.Machine
end

