-- ==== Sys2Proof/Laws/Decode.lean ====
section
/-! SUPPORT. Laws of the decoder and the encoder: the fields of the headers the encoder builds, and what each format's
decoder answers. -/

namespace Sys2Proof.Machine

theorem mode_number_lt (m : Mode) : m.number < 6 := by cases m <;> decide

@[simp] theorem modeOfNumber_number (m : Mode) : modeOfNumber m.number = some m := by cases m <;> rfl

theorem modeOfNumber_eq_some {n : Nat} {m : Mode} (h : modeOfNumber n = some m) : n = m.number := by
  unfold modeOfNumber at h
  split at h <;> simp_all <;> subst h <;> rfl

theorem modeOfNumber_eq_none_iff (n : Nat) : modeOfNumber n = none ↔ 6 ≤ n := by
  constructor
  · intro h
    by_contra hlt
    have : n < 6 := by omega
    interval_cases n <;> simp [modeOfNumber] at h
  · intro h
    obtain ⟨k, rfl⟩ := Nat.exists_eq_add_of_le h
    rw [Nat.add_comm]
    rfl

theorem headerK_toNat (mode : Mode) {k i c n : Nat} (hk : k ≤ 127) (hi : i ≤ 63) (hc : c ≤ 63) (hn : n ≤ 63) :
    (headerK mode k i c n).toNat =
      268435456 + mode.number * 33554432 + k * 262144 + i * 4096 + c * 64 + n := by
  have := mode_number_lt mode
  simp only [headerK, BitVec.toNat_ofNat]
  omega

theorem headerK_fields (mode : Mode) {k i c n : Nat} (hk : k ≤ 127) (hi : i ≤ 63) (hc : c ≤ 63) (hn : n ≤ 63) :
    field 31 28 (headerK mode k i c n) = 1 ∧ field 27 25 (headerK mode k i c n) = mode.number ∧
    klenOf (headerK mode k i c n) = k ∧ ivlenOf (headerK mode k i c n) = i ∧
    clenOf (headerK mode k i c n) = c ∧ slenOf (headerK mode k i c n) = n := by
  have := mode_number_lt mode
  have := headerK_toNat mode hk hi hc hn
  simp only [field, klenOf, ivlenOf, clenOf, slenOf]
  omega

/-- The opcode of a direction (`30_encoding.md` R64). -/
def dirOp : Dir → Nat
  | .encrypt => 2
  | .decrypt => 3

theorem headerD_toNat (dir : Dir) (last : Bool) {n : Nat} (hn : n ≤ 16777215) :
    (headerD dir last n).toNat = dirOp dir * 268435456 + last.toNat * 134217728 + n := by
  have := Bool.toNat_le last
  cases dir <;> simp only [headerD, dirOp, BitVec.toNat_ofNat] <;> omega

theorem headerD_fields (dir : Dir) (last : Bool) {n : Nat} (hn : n ≤ 16777215) :
    field 31 28 (headerD dir last n) = dirOp dir ∧ field 27 27 (headerD dir last n) = last.toNat ∧
    field 26 24 (headerD dir last n) = 0 ∧ field 23 0 (headerD dir last n) = n := by
  have h := headerD_toNat dir last hn
  have := Bool.toNat_le last
  cases dir <;> simp only [field, dirOp] at * <;> omega

/-! The masks of `30_encoding.md` R68 keep the upper bits of a header. -/

theorem mask25_toNat (h : Word) : (h &&& 0xFE000000#32).toNat = h.toNat / 2 ^ 25 * 2 ^ 25 := by
  have hs : h &&& 0xFE000000#32 = (h >>> 25) <<< 25 := by
    apply BitVec.eq_of_getLsbD_eq
    intro i hi
    interval_cases i <;> simp
  have := h.isLt
  rw [hs]
  simp only [BitVec.toNat_shiftLeft, BitVec.toNat_ushiftRight, Nat.shiftRight_eq_div_pow, Nat.shiftLeft_eq]
  omega

theorem mask24_toNat (h : Word) : (h &&& 0xFF000000#32).toNat = h.toNat / 2 ^ 24 * 2 ^ 24 := by
  have hs : h &&& 0xFF000000#32 = (h >>> 24) <<< 24 := by
    apply BitVec.eq_of_getLsbD_eq
    intro i hi
    interval_cases i <;> simp
  have := h.isLt
  rw [hs]
  simp only [BitVec.toNat_shiftLeft, BitVec.toNat_ushiftRight, Nat.shiftRight_eq_div_pow, Nat.shiftLeft_eq]
  omega

theorem mask_all (h : Word) : h &&& 0xFFFFFFFF#32 = h := BitVec.and_allOnes

/-- The payload of format K falls into its four operands. -/
theorem cut_four (p : Bytes) {a b c d : Nat} (hl : p.length = a + b + c + d) :
    p.take a ++ ((p.drop a).take b ++ ((p.drop (a + b)).take c ++ (p.drop (a + b + c)).take d)) = p := by
  have h3 : (p.drop (a + b + c)).take d = p.drop (a + b + c) := by
    apply List.take_of_length_le
    simp only [List.length_drop]
    omega
  have h2 : (p.drop (a + b)).take c ++ p.drop (a + b + c) = p.drop (a + b) := by
    rw [show p.drop (a + b + c) = (p.drop (a + b)).drop c from List.drop_drop.symm]
    exact List.take_append_drop _ _
  have h1 : (p.drop a).take b ++ p.drop (a + b) = p.drop a := by
    rw [← List.drop_drop]
    exact List.take_append_drop _ _
  rw [h3, h2, h1, List.take_append_drop]

theorem decodePacket_K {h : Word} (hop : field 31 28 h = 1) (payload : Bytes) :
    decodePacket ⟨h, payload⟩ = decodeK h payload := by simp [decodePacket, hop]

theorem decodePacket_D {h : Word} (dir : Dir) (hop : field 31 28 h = dirOp dir) (payload : Bytes) :
    decodePacket ⟨h, payload⟩ = decodeD dir h payload := by
  cases dir <;> simp only [dirOp] at hop <;> simp [decodePacket, hop]

theorem decodePacket_restart {h : Word} (hop : field 31 28 h = 4) (payload : Bytes) :
    decodePacket ⟨h, payload⟩ = decodeZ .restart h payload := by simp [decodePacket, hop]

theorem decodePacket_destroy {h : Word} (hop : field 31 28 h = 5) (payload : Bytes) :
    decodePacket ⟨h, payload⟩ = decodeZ .destroy h payload := by simp [decodePacket, hop]

theorem decodePacket_reserved {h : Word} (hop : field 31 28 h = 0 ∨ 6 ≤ field 31 28 h) (payload : Bytes) :
    decodePacket ⟨h, payload⟩ = .error .reservedOpcode := by
  unfold decodePacket
  dsimp only
  split <;> simp_all

/-- Format K on a legal mode number and the declared payload length. -/
theorem decodeK_ok {h : Word} {mode : Mode} {payload : Bytes} (hm : field 27 25 h = mode.number)
    (hl : payload.length = klenOf h + ivlenOf h + clenOf h + slenOf h) :
    decodeK h payload = .ok (constructInstr mode
      (payload.take (klenOf h))
      ((payload.drop (klenOf h)).take (ivlenOf h))
      ((payload.drop (klenOf h + ivlenOf h)).take (clenOf h))
      ((payload.drop (klenOf h + ivlenOf h + clenOf h)).take (slenOf h))) := by
  simp only [decodeK, hm, modeOfNumber_number, if_pos hl]

theorem drop_length_add {α : Type} (a b : List α) (n : Nat) : (a ++ b).drop (a.length + n) = b.drop n := by
  induction a with
  | nil => simp
  | cons x a ih => rw [List.length_cons, Nat.add_right_comm, List.cons_append, List.drop_succ_cons, ih]

/-- Format K reads back the operands it was given (`30_encoding.md` R63, R66). -/
theorem decode_encodeK (mode : Mode) {key iv ctr sector : Bytes}
    (h : constructFits key iv ctr sector = true) :
    decode (encodeK mode key iv ctr sector) = .ok (constructInstr mode key iv ctr sector) := by
  simp only [constructFits, Bool.and_eq_true, decide_eq_true_eq] at h
  obtain ⟨⟨⟨hk, hi⟩, hc⟩, hn⟩ := h
  obtain ⟨f1, f2, f3, f4, f5, f6⟩ := headerK_fields mode hk hi hc hn
  have hl : (key ++ iv ++ ctr ++ sector).length = key.length + iv.length + ctr.length + sector.length := by
    simp only [List.length_append]
  simp only [decode, encodeK]
  rw [decodePacket_K f1, decodeK_ok f2 (by rw [f3, f4, f5, f6, hl]), f3, f4, f5, f6]
  have e1 : (key ++ iv ++ ctr ++ sector).drop key.length = iv ++ ctr ++ sector := by
    rw [List.append_assoc, List.append_assoc, List.drop_left, List.append_assoc]
  have e2 : (key ++ iv ++ ctr ++ sector).drop (key.length + iv.length) = ctr ++ sector := by
    rw [← List.drop_drop, e1, List.append_assoc, List.drop_left]
  have e3 : (key ++ iv ++ ctr ++ sector).drop (key.length + iv.length + ctr.length) = sector := by
    rw [← List.drop_drop, e2, List.drop_left]
  rw [e1, e2, e3, List.append_assoc, List.append_assoc, List.take_left, List.append_assoc, List.take_left,
    List.take_left, List.take_length]

/-- Format D on the declared payload length. -/
theorem decodeD_ok (dir : Dir) {h : Word} {payload : Bytes} (hz : field 26 24 h = 0)
    (hl : payload.length = field 23 0 h) :
    decodeD dir h payload = .ok (dataInstr dir (field 27 27 h == 1) payload) := by
  simp only [decodeD, hz, ne_eq, not_true_eq_false, if_false, if_pos hl]

/-- Format D reads back the data it was given (`30_encoding.md` R64). -/
theorem decode_encodeD (dir : Dir) (last : Bool) {data : Bytes} (h : dataFits data = true) :
    decode (encodeD dir last data) = .ok (dataInstr dir last data) := by
  simp only [dataFits, decide_eq_true_eq] at h
  obtain ⟨f1, f2, f3, f4⟩ := headerD_fields dir last h
  have hl : (last.toNat == 1) = last := by cases last <;> rfl
  simp only [decode, encodeD]
  rw [decodePacket_D dir f1, decodeD_ok dir f3 f4.symm, f2, hl]

end Sys2Proof.Machine
end

