-- ==== Sys2Proof/Laws/PerInstr.lean ====
section
/-! SUPPORT. Facts of the syntax, one lemma per command: `Row`, the header a command is encoded with is one that its
row of the opcode table matches, with the payload it declares (`30_encoding.md` R63 to R68). -/

namespace Sys2Proof.Laws.Row

open Sys2Proof.Machine

/-- The encoding of a well-formed command lies in the command's own row (`30_encoding.md` R68). -/
def Statement (i : Instr) : Prop :=
  ∀ row, opcodeRow i = some row → WellFormed i = true →
    ∃ h payload, encode i = .packet ⟨h, payload⟩ ∧ h &&& row.2 = row.1 ∧ payload.length = declaredLength h

theorem formatK (mode : Mode) {key iv ctr sector : Bytes} (hf : constructFits key iv ctr sector = true) {v : Word}
    (hv : v.toNat = 268435456 + mode.number * 33554432) :
    ∃ h payload, encodeK mode key iv ctr sector = .packet ⟨h, payload⟩ ∧ h &&& 0xFE000000#32 = v ∧
      payload.length = declaredLength h := by
  simp only [constructFits, Bool.and_eq_true, decide_eq_true_eq] at hf
  obtain ⟨⟨⟨hk, hi⟩, hc⟩, hs⟩ := hf
  refine ⟨_, _, rfl, ?_, ?_⟩
  · apply BitVec.eq_of_toNat_eq
    rw [mask25_toNat, headerK_toNat mode hk hi hc hs, hv]
    omega
  · obtain ⟨f1, -, f3, f4, f5, f6⟩ := headerK_fields mode hk hi hc hs
    simp only [declaredLength, f1, f3, f4, f5, f6, List.length_append]

theorem formatD (dir : Dir) (last : Bool) {data : Bytes} (hf : dataFits data = true) {v : Word}
    (hv : v.toNat = dirOp dir * 268435456 + last.toNat * 134217728) :
    ∃ h payload, encodeD dir last data = .packet ⟨h, payload⟩ ∧ h &&& 0xFF000000#32 = v ∧
      payload.length = declaredLength h := by
  simp only [dataFits, decide_eq_true_eq] at hf
  refine ⟨_, _, rfl, ?_, ?_⟩
  · apply BitVec.eq_of_toNat_eq
    rw [mask24_toNat, headerD_toNat dir last hf, hv]
    omega
  · obtain ⟨f1, -, -, f4⟩ := headerD_fields dir last hf
    cases dir <;> simp only [declaredLength, f1, f4, dirOp]

theorem constructEcb (key iv ctr sector : Bytes) : Statement (.constructEcb key iv ctr sector) := by
  rintro _ ⟨⟩ hf
  exact formatK .ecb hf rfl

theorem constructCbc (key iv ctr sector : Bytes) : Statement (.constructCbc key iv ctr sector) := by
  rintro _ ⟨⟩ hf
  exact formatK .cbc hf rfl

theorem constructCfb (key iv ctr sector : Bytes) : Statement (.constructCfb key iv ctr sector) := by
  rintro _ ⟨⟩ hf
  exact formatK .cfb hf rfl

theorem constructOfb (key iv ctr sector : Bytes) : Statement (.constructOfb key iv ctr sector) := by
  rintro _ ⟨⟩ hf
  exact formatK .ofb hf rfl

theorem constructCtr (key iv ctr sector : Bytes) : Statement (.constructCtr key iv ctr sector) := by
  rintro _ ⟨⟩ hf
  exact formatK .ctr hf rfl

theorem constructXts (key iv ctr sector : Bytes) : Statement (.constructXts key iv ctr sector) := by
  rintro _ ⟨⟩ hf
  exact formatK .xts hf rfl

theorem enc (data : Bytes) : Statement (.enc data) := by
  rintro _ ⟨⟩ hf
  exact formatD .encrypt false hf rfl

theorem encLast (data : Bytes) : Statement (.encLast data) := by
  rintro _ ⟨⟩ hf
  exact formatD .encrypt true hf rfl

theorem dec (data : Bytes) : Statement (.dec data) := by
  rintro _ ⟨⟩ hf
  exact formatD .decrypt false hf rfl

theorem decLast (data : Bytes) : Statement (.decLast data) := by
  rintro _ ⟨⟩ hf
  exact formatD .decrypt true hf rfl

theorem restart : Statement .restart := by
  rintro _ ⟨⟩ -
  exact ⟨_, _, rfl, rfl, rfl⟩

theorem destroy : Statement .destroy := by
  rintro _ ⟨⟩ -
  exact ⟨_, _, rfl, rfl, rfl⟩

/-- The status read is no packet and has no row (`30_encoding.md` R75). -/
theorem sr (n : Nat) : Statement (.sr n) := by
  rintro _ ⟨⟩

end Sys2Proof.Laws.Row
end

