-- ==== Sys2Proof/Tests/Slice0.lean ====
section
/-! SUPPORT. Tests: ill-formed commands that WellFormed refuses, headers decoded, the spec's vectors on its toy
primitives (expected values: `95_test_vectors.md`, by number), and for each obligation with hypotheses a concrete
state and operands that meet them. -/

namespace Sys2Proof.Tests

open Sys2Proof.Machine

/-! Ill-formed commands -/

theorem test_illFormed_key : WellFormed (.constructEcb (zeros 128) [] [] []) = false := by
  simp [WellFormed, constructFits, zeros]
theorem test_illFormed_iv : WellFormed (.constructCbc [] (zeros 64) [] []) = false := by decide
theorem test_illFormed_key_cfb : WellFormed (.constructCfb (zeros 128) [] [] []) = false := by
  simp [WellFormed, constructFits, zeros]
theorem test_illFormed_iv_ofb : WellFormed (.constructOfb [] (zeros 64) [] []) = false := by decide
theorem test_illFormed_counter : WellFormed (.constructCtr [] [] (zeros 64) []) = false := by decide
theorem test_illFormed_sector : WellFormed (.constructXts [] [] [] (zeros 64)) = false := by decide
theorem test_illFormed_data : ∀ dir last data, data.length = 16777216 →
    WellFormed (dataInstr dir last data) = false := by
  intro dir last data h
  cases dir <;> cases last <;> simp [dataInstr, WellFormed, dataFits, h]

/-! Decoding: headers written out from `30_encoding.md` section 9 and vector DV21 -/

theorem test_decode_constructEcb : decode (.packet ⟨0x10200000, zeros 8⟩) = .ok (.constructEcb (zeros 8) [] [] []) := by
  decide
theorem test_decode_constructCbc :
    decode (.packet ⟨0x12143200, zeros 5 ++ List.replicate 3 1 ++ List.replicate 8 2⟩) =
      .ok (.constructCbc (zeros 5) (List.replicate 3 1) (List.replicate 8 2) []) := by decide
theorem test_decode_constructCfb :
    decode (.packet ⟨0x14208000, zeros 8 ++ List.replicate 8 1⟩) =
      .ok (.constructCfb (zeros 8) (List.replicate 8 1) [] []) := by decide
theorem test_decode_constructOfb :
    decode (.packet ⟨0x16208000, zeros 8 ++ List.replicate 8 1⟩) =
      .ok (.constructOfb (zeros 8) (List.replicate 8 1) [] []) := by decide
theorem test_decode_constructCtr :
    decode (.packet ⟨0x18200200, zeros 8 ++ List.replicate 8 1⟩) =
      .ok (.constructCtr (zeros 8) [] (List.replicate 8 1) []) := by decide
theorem test_decode_constructXts :
    decode (.packet ⟨0x1A800010, zeros 32 ++ List.replicate 16 1⟩) =
      .ok (.constructXts (zeros 32) [] [] (List.replicate 16 1)) := by decide
theorem test_decode_enc : decode (.packet ⟨0x20000030, zeros 48⟩) = .ok (.enc (zeros 48)) := by decide
theorem test_decode_encLast : decode (.packet ⟨0x28000000, []⟩) = .ok (.encLast []) := by decide
theorem test_decode_dec : decode (.packet ⟨0x30000010, zeros 16⟩) = .ok (.dec (zeros 16)) := by decide
theorem test_decode_decLast : decode (.packet ⟨0x38000005, zeros 5⟩) = .ok (.decLast (zeros 5)) := by decide
theorem test_decode_restart : decode (.packet ⟨0x40000000, []⟩) = .ok .restart := by decide
theorem test_decode_destroy : decode (.packet ⟨0x50000000, []⟩) = .ok .destroy := by decide
theorem test_decode_sr : decode (.statusRead 255) = .ok (.sr 255) := by decide

theorem test_decode_reservedOpcode :
    decode (.packet ⟨0, []⟩) = .error .reservedOpcode ∧ decode (.packet ⟨0x60000000, []⟩) = .error .reservedOpcode ∧
    decode (.packet ⟨0xF0000000, []⟩) = .error .reservedOpcode := by decide
theorem test_decode_reservedMode :
    decode (.packet ⟨0x1C200000, zeros 8⟩) = .error .reservedMode ∧
    decode (.packet ⟨0x1E200000, zeros 8⟩) = .error .reservedMode := by decide
theorem test_decode_reservedBits :
    decode (.packet ⟨0x21000003, zeros 3⟩) = .error .reservedBits ∧
    decode (.packet ⟨0x24000003, zeros 3⟩) = .error .reservedBits ∧
    decode (.packet ⟨0x40000001, []⟩) = .error .reservedBits ∧
    decode (.packet ⟨0x58000000, []⟩) = .error .reservedBits := by decide
theorem test_decode_payloadLength :
    decode (.packet ⟨0x50000000, [0]⟩) = .error .payloadLength ∧
    decode (.packet ⟨0x20000010, zeros 15⟩) = .error .payloadLength ∧
    decode (.packet ⟨0x12208000, zeros 17⟩) = .error .payloadLength := by decide

theorem test_encode_headers :
    encode (.constructXts (zeros 32) [] [] (zeros 16)) = .packet ⟨0x1A800010, zeros 48⟩ ∧
    encode (.constructEcb [1] [2] [3] [4]) = .packet ⟨0x10041041, [1, 2, 3, 4]⟩ ∧
    headerK .ecb 127 63 63 63 = 0x11FFFFFF ∧
    encode (.encLast (zeros 48)) = .packet ⟨0x28000030, zeros 48⟩ ∧
    encode .destroy = .packet ⟨0x50000000, []⟩ := by decide

/-- The opcode table's numbers: a bare header, a header with its payload filled up, the status read. -/
theorem test_tableWord :
    decodeTableWord 32 0x10000000 = some (.constructEcb [] [] [] []) ∧
    decodeTableWord 32 0x12208000 = some (.constructCbc (zeros 8) (zeros 8) [] []) ∧
    decodeTableWord 48 0x221120000002 = some (.enc [0x11, 0x22]) ∧ decodeTableWord 0 3 = some (.sr 3) ∧
    decodeTableWord 32 0x21000000 = none := by decide

/-- The table's number of a command runs as the first command after reset. -/
theorem test_withFetchWord :
    step (State.reset.withFetchWord 32 0x50000000) = exec .destroy State.reset ∧
    step (State.reset.withFetchWord 32 0x28000000) = .next (State.reset.errored 7) ∧
    step (State.reset.withFetchWord 32 0x60000000) = .next (State.reset.errored 6) := ⟨rfl, rfl, rfl⟩

/-! The spec's vectors on its toy primitives -/

def toy8 : Primitive := ⟨8, [8], .toy⟩
def toy16 : Primitive := ⟨16, [16], .toy⟩
def key8 : Bytes := beBytes 0x0102030405060708 8
def iv8 : Bytes := beBytes 0xa0a1a2a3a4a5a6a7 8
def ctr8 : Bytes := beBytes 0xff 8
def m16 : Bytes := beBytes 0x00112233445566778899aabbccddeeff 16
def m18 : Bytes := m16 ++ [1, 2]
def key32 : Bytes := beBytes 0x000102030405060708090a0b0c0d0e0f101112131415161718191a1b1c1d1e1f 32

/-- The state after a command. -/
def after (s : State) (i : Instr) : State :=
  match exec i s with
  | .next t => t
  | _ => s

/-- The last answer given out. -/
def lastAnswer (s : State) : Option Answer := s.outbox.getLast?

def ecb0 : State := after (State.resetWith toy8) (.constructEcb key8 [] [] [])
def cbc0 : State := after (State.resetWith toy8) (.constructCbc key8 iv8 [] [])
def cfb0 : State := after (State.resetWith toy8) (.constructCfb key8 iv8 [] [])
def ofb0 : State := after (State.resetWith toy8) (.constructOfb key8 iv8 [] [])
def ctr0 : State := after (State.resetWith toy8) (.constructCtr key8 [] ctr8 [])
def xts0 : State := after (State.resetWith toy16) (.constructXts key32 [] [] [])
/-- Program P3 after step 4: 16 bytes held back, one block out. -/
def xts1 : State := after (after xts0 (.enc (m16.take 10))) (.enc (m16.drop 10 ++ m16))

/-- DV1. -/
theorem test_toy_E_D :
    E toy8 key8 m16.dropLast = beBytes 0x1020304050607008 8 ∧ D toy8 key8 key8 = zeros 8 ∧
    D toy16 (key32.take 16) m16 = beBytes 0xf000102030405060708090a0b0c0d0e0 16 := by decide

/-- DV10. -/
theorem test_inc :
    inc (beBytes 0xffff 8) = beBytes 0x10000 8 ∧ inc (beBytes 0x7fffffffffffffff 8) = beBytes 0x8000000000000000 8 ∧
    inc (beBytes 0xffffffffffffffff 8) = zeros 8 ∧ inc [0xff] = [0] ∧
    inc (beBytes 0xf0f1f2f3f4f5f6f7ffffffffffffffff 16) = beBytes 0xf0f1f2f3f4f5f6f80000000000000000 16 := by decide

/-- DV11. -/
theorem test_mulAlpha :
    mulAlpha (beBytes 0x80 16) = beBytes 0x87000000000000000000000000000000 16 ∧
    mulAlpha (beBytes 0x80000000000000000000000000000000 16) = beBytes 0x00010000000000000000000000000000 16 ∧
    mulAlpha (beBytes 0x0123456789abcdeffedcba9876543210 16) = beBytes 0x02468ace12579bdffdb97531eda86420 16 ∧
    mulAlpha (beBytes 0x87000000000000000000000000000080 16) = beBytes 0x89010000000000000000000000000000 16 := by decide

/-- DV2, with a residue. -/
theorem test_ecb_encLast :
    lastAnswer (after ecb0 (.encLast m18)) = some (.response 0 16 (beBytes 0x102030405060700898a8b8c8d8e8f880 16)) ∧
    (after ecb0 (.encLast m18)).carry = [1, 2] := by decide

/-- DV25: one carry buffer for both directions. -/
theorem test_ecb_mixed :
    lastAnswer (after (after ecb0 (.enc [0x00, 0x11, 0x22])) (.decLast [0x33, 0x44, 0x55, 0x66, 0x77])) =
      some (.response 0 8 (beBytes 0x7f01132137415361 8)) := by decide

/-- DV5. -/
theorem test_cbc_encLast :
    lastAnswer (after cbc0 (.encLast m16)) = some (.response 0 16 (beBytes 0xb18293e4f5c6d7a81a3b5c3d1e3f5031 16)) := by
  decide

/-- Program P1, step 6. -/
theorem test_cbc_dec :
    let s := after cbc0 (.dec (beBytes 0xb18293e4f5c6d7a81a 9))
    lastAnswer s = some (.response 0 8 (beBytes 0x0011223344556677 8)) ∧
    s.prev = beBytes 0xb18293e4f5c6d7a8 8 ∧ statusValue 1 s = 5 ∧ statusValue 3 s = 1 ∧ statusValue 4 s = 9 ∧
    statusValue 5 s = 1 := by decide

/-- DV6, in two pieces (DV19). -/
theorem test_cfb_enc :
    let s := after (after cfb0 (.enc (m18.take 7))) (.enc ((m18.drop 7).take 2))
    lastAnswer s = some (.response 0 8 (beBytes 0xa0b18293e4f5c6df 8)) ∧ s.prev = beBytes 0xa0b18293e4f5c6df 8 ∧
    lastAnswer (after s (.encLast (m18.drop 9))) = some (.response 0 10 (beBytes 0x38193a5b3c1d3657193a 10)) := by decide

theorem test_cfb_decLast :
    lastAnswer (after cfb0 (.decLast (beBytes 0xa0b18293e4f5c6df38193a5b3c1d3657193a 18))) =
      some (.response 0 18 m18) := by decide

/-- DV7. -/
theorem test_ofb_encLast :
    lastAnswer (after ofb0 (.encLast m18)) =
      some (.response 0 18 (beBytes 0xa0b18293e4f5c6df293b091f697b4157a2a3 18)) := by decide

/-- DV8. -/
theorem test_ctr_encLast :
    let s := after ctr0 (.encLast m18)
    lastAnswer s = some (.response 0 18 (beBytes 0x0113213741539e7f899ba9bfc9dae9f70000 18)) ∧
    s.ctr = beBytes 0x102 8 := by decide

/-- DV24. -/
theorem test_restart :
    let s := after (after ctr0 (.encLast (m16.take 5))) .restart
    s.ctr = ctr8 ∧ statusValue 1 s = 0x11 ∧ statusValue 4 s = 0 ∧
    lastAnswer (after s (.decLast (beBytes 0x0113213741 5))) = some (.response 0 5 (m16.take 5)) := by decide

/-- Program P3, steps 4 and 5. -/
theorem test_xts_holdBack_steal :
    lastAnswer xts1 = some (.response 0 16 (beBytes 0x102030405060708090a0b0c0d0e0f000 16)) ∧
    statusValue 3 xts1 = 16 ∧ xts1.tweak = beBytes 0x20222426282a2c2e30323436383a3c3e 16 ∧
    lastAnswer (after xts1 (.encLast [0xa1, 0xa2, 0xa3, 0xa4])) =
      some (.response 0 20 (beBytes 0xa6aea24c657a93a8a9b6c7c4edf21b9213253349 20)) ∧
    (after xts1 (.encLast [0xa1, 0xa2, 0xa3, 0xa4])).tweak = beBytes 0x80889098a0a8b0b8c0c8d0d8e0e8f0f8 16 := by decide

/-- The stealing of one block and four bytes, undone. -/
theorem test_xts_decLast :
    lastAnswer (after xts0 (.decLast (beBytes 0xa0a4a45d66738489aabfc8d5eefb0cb010203040 20))) =
      some (.response 0 20 (m16 ++ [0xa1, 0xa2, 0xa3, 0xa4])) := by decide

/-- Program P3, step 2. -/
theorem test_xts_short : exec (.encLast (m16.take 10)) xts0 = .next (xts0.errored 4) := rfl

/-- DV22: the order of CONSTRUCT's checks. -/
theorem test_construct_errors :
    let s := State.resetWith toy8
    exec (.constructCbc (zeros 5) (zeros 3) (zeros 8) []) s = .next (s.errored 1) ∧
    exec (.constructCbc key8 (zeros 3) (zeros 8) []) s = .next (s.errored 5) ∧
    exec (.constructCbc key8 (zeros 3) [] []) s = .next (s.errored 2) ∧
    exec (.constructCtr key8 [] (zeros 7) []) s = .next (s.errored 3) ∧
    exec (.constructEcb [] [] [] []) s = .next (s.errored 1) ∧
    exec (.constructXts (zeros 16) [] [] []) s = .next (s.errored 5) ∧
    exec (.constructXts (zeros 15) [] [] []) s = .next (s.errored 1) :=
  ⟨rfl, rfl, rfl, rfl, rfl, rfl, rfl⟩

/-- DV22 over 16-byte blocks: check 6, and the two operands XTS does not take. -/
theorem test_construct_errors_xts :
    let s := State.resetWith toy16
    exec (.constructXts key32 [] [] (zeros 8)) s = .next (s.errored 5) ∧
    exec (.constructXts key32 (zeros 16) [] []) s = .next (s.errored 5) ∧
    exec (.constructXts key32 [] (zeros 16) []) s = .next (s.errored 5) :=
  ⟨rfl, rfl, rfl⟩

/-- DV23, and DV24's second DESTROY. -/
theorem test_phase_errors :
    let s := State.resetWith toy8
    exec (.enc [0]) s = .next (s.errored 7) ∧ exec .restart s = .next (s.errored 7) ∧
    exec (.constructEcb [] [] [] []) ecb0 = .next (ecb0.errored 7) ∧
    exec (.dec [0]) (after ecb0 (.encLast [])) = .next ((after ecb0 (.encLast [])).errored 7) ∧
    exec .destroy s = .next { s with outbox := [okAnswer []] } :=
  ⟨rfl, rfl, rfl, rfl, rfl⟩

/-- Program P4, steps 1 and 2, and the status registers just after reset (DV21). -/
theorem test_sticky_and_status :
    let s := State.resetWith toy8
    step { s with inbox := [.request (.packet ⟨0, []⟩)] } = .next (s.errored 6) ∧
    statusValue 2 (after (s.errored 6) (.enc [0])) = 0xC0 ∧
    exec (.sr 0) s = .next { s with outbox := [.status 8] } ∧
    exec (.sr 255) s = .next { s with outbox := [.status 0] } :=
  ⟨rfl, rfl, rfl, rfl⟩

/-! Witnesses: for each obligation with hypotheses, a state and operands that meet all of them together -/

theorem toy8_admissible : toy8.Admissible := by unfold Primitive.Admissible; decide
theorem toy16_admissible : toy16.Admissible := by unfold Primitive.Admissible; decide

theorem ecb0_inv : ecb0.Inv := by constructor <;> first | exact toy8_admissible | decide
theorem cbc0_inv : cbc0.Inv := by constructor <;> first | exact toy8_admissible | decide
theorem cfb0_inv : cfb0.Inv := by constructor <;> first | exact toy8_admissible | decide
theorem ofb0_inv : ofb0.Inv := by constructor <;> first | exact toy8_admissible | decide
theorem ctr0_inv : ctr0.Inv := by constructor <;> first | exact toy8_admissible | decide
theorem xts0_inv : xts0.Inv := by constructor <;> first | exact toy16_admissible | decide
theorem xts1_inv : xts1.Inv := by constructor <;> first | exact toy16_admissible | decide

/-- A CFB instance in the middle of a message, 7 bytes in the carry buffer. -/
def cfb1 : State := after cfb0 (.enc (m18.take 7))
theorem cfb1_inv : cfb1.Inv := by constructor <;> first | exact toy8_admissible | decide

/-- The ECB instance under another key. -/
def ecb0' : State := after (State.resetWith toy8) (.constructEcb iv8 [] [] [])
theorem ecb0'_inv : ecb0'.Inv := by constructor <;> first | exact toy8_admissible | decide

/-- A finished CTR message with a final fragment. -/
def ctr2 : State := after ctr0 (.encLast m18)
theorem ctr2_inv : ctr2.Inv := by constructor <;> first | exact toy8_admissible | decide

/-- A finished ECB message with a residue in the carry buffer. -/
def ecb2 : State := after ecb0 (.encLast m18)
theorem ecb2_inv : ecb2.Inv := by constructor <;> first | exact toy8_admissible | decide

/-- The state with one event at its ports. -/
def asked (s : State) (e : HostEvent) : State := { s with inbox := [e] }

theorem witness_DecodeOfEncodeIsTheCommand :
    WellFormed (.constructXts (zeros 127) (zeros 63) (zeros 63) (zeros 63)) = true ∧
    WellFormed (.constructCtr [] [] [] []) = true ∧ WellFormed (.encLast []) = true ∧
    (∀ data : Bytes, data.length = 16777215 → WellFormed (.dec data) = true) ∧
    WellFormed .restart = true ∧ WellFormed (.sr 255) = true := by
  refine ⟨?_, rfl, rfl, fun data h => ?_, rfl, rfl⟩
  · simp [WellFormed, constructFits, zeros]
  · simp [WellFormed, dataFits, h]

theorem witness_EncodeOfDecodeIsTheRequest :
    decode (.packet ⟨0x1A800010, zeros 48⟩) = .ok (.constructXts (zeros 32) [] [] (zeros 16)) ∧
    decode (.statusRead 5) = .ok (.sr 5) := by decide

theorem witness_FormatsAreReadBitByBit :
    ((0x1BFFFFFF : Word).extractLsb 31 28 = 1#4 ∧ ((0x1BFFFFFF : Word).extractLsb 27 25).toNat = Mode.xts.number ∧
      (zeros 316).length = ((0x1BFFFFFF : Word).extractLsb 24 18).toNat + ((0x1BFFFFFF : Word).extractLsb 17 12).toNat +
        ((0x1BFFFFFF : Word).extractLsb 11 6).toNat + ((0x1BFFFFFF : Word).extractLsb 5 0).toNat) ∧
    ((0x38000005 : Word).extractLsb 31 28 = 3#4 ∧ (0x38000005 : Word).extractLsb 26 24 = 0#3 ∧
      (zeros 5).length = ((0x38000005 : Word).extractLsb 23 0).toNat) ∧
    ((0x20000000 : Word).extractLsb 31 28 = 2#4 ∧ (0x20000000 : Word).extractLsb 26 24 = 0#3 ∧
      (zeros 0).length = ((0x20000000 : Word).extractLsb 23 0).toNat) ∧
    (0x40000000 : Word).extractLsb 27 0 = 0#28 ∧ (0x40000000 : Word).extractLsb 31 28 = 4#4 ∧
    (0x50000000 : Word).extractLsb 27 0 = 0#28 ∧ (0x50000000 : Word).extractLsb 31 28 = 5#4 := by
  simp only [zeros, List.length_replicate]
  decide

theorem witness_IllegalPacketsRaiseIllegalCommand :
    let inbox (p : Packet) := (asked ecb0 (.request (.packet p))).inbox
    inbox ⟨0x21000003, zeros 3⟩ = .request (.packet ⟨0x21000003, zeros 3⟩) :: [] ∧
    (∀ p ∈ ([⟨0, []⟩, ⟨0x60000000, []⟩, ⟨0xF0000000, []⟩, ⟨0x1C200000, zeros 8⟩, ⟨0x21000003, zeros 3⟩,
      ⟨0x58000000, []⟩, ⟨0x50000000, [0]⟩, ⟨0x20000010, zeros 15⟩] : List Packet), IllegalPacket p) ∧
    ¬ IllegalPacket ⟨0x20000010, zeros 16⟩ := by
  unfold IllegalPacket
  exact ⟨rfl, by decide, by decide⟩

theorem witness_OpcodeRowsSelectTheirCommands :
    decode (.packet ⟨0x38000005, zeros 5⟩) = .ok (.decLast (zeros 5)) ∧
    opcodeRow (.decLast []) = some (0x38000000, 0xFF000000) ∧ (0x38000005 : Word) &&& 0xFF000000 = 0x38000000 ∧
    (zeros 5).length = declaredLength 0x38000005 := by decide

theorem witness_StepExecutesTheDecodedCommand :
    (asked ecb0 (.request (.packet ⟨0x20000003, zeros 3⟩))).inbox = .request (.packet ⟨0x20000003, zeros 3⟩) :: [] ∧
    decode (.packet ⟨0x20000003, zeros 3⟩) = .ok (.enc (zeros 3)) ∧ State.reset.inbox = [] := ⟨rfl, rfl, rfl⟩

theorem witness_ResetStateHoldsTheResetValues :
    toy8.Admissible ∧ (⟨1, [1], .attached⟩ : Primitive).Admissible ∧ (⟨63, [127, 5], .attached⟩ : Primitive).Admissible := by
  unfold Primitive.Admissible
  decide

theorem witness_HardwareResetAndDestroyGiveTheResetValues :
    (asked ctr2 .hardwareReset).inbox = .hardwareReset :: [] := rfl

theorem witness_ConstructEcbStartsAnInstance :
    (State.resetWith toy8).phase = .idle ∧ (State.resetWith toy8).prim.accepts key8.length = true := by decide

theorem witness_ConstructCbcCfbOfbStartAnInstance :
    (State.resetWith toy8).phase = .idle ∧ (State.resetWith toy8).prim.accepts key8.length = true ∧
    iv8.length = (State.resetWith toy8).bs := by decide

theorem witness_ConstructCtrStartsAnInstance :
    (State.resetWith toy8).phase = .idle ∧ (State.resetWith toy8).prim.accepts key8.length = true ∧
    ctr8.length = (State.resetWith toy8).bs := by decide

theorem witness_ConstructXtsStartsAnInstance :
    (State.resetWith toy16).phase = .idle ∧ (State.resetWith toy16).bs = 16 ∧
    (key32.drop 16).length = (key32.take 16).length ∧
    (State.resetWith toy16).prim.accepts (key32.take 16).length = true ∧ m16.length = 16 := by decide

theorem witness_ConstructRaisesTheFirstErrorThatApplies :
    (State.resetWith toy8).phase = .idle ∧
    ¬ KeyLengthAccepted toy8 .cbc (zeros 5) ∧ ¬ KeyLengthAccepted toy16 .xts (zeros 31) ∧
    (KeyLengthAccepted toy8 .ecb key8 ∧ OperandUnsupported 8 .ecb iv8 [] []) ∧
    (KeyLengthAccepted toy16 .xts key32 ∧ OperandUnsupported 16 .xts [] [] (zeros 15)) ∧
    (KeyLengthAccepted toy8 .xts m16 ∧ OperandUnsupported 8 .xts [] [] []) ∧
    (KeyLengthAccepted toy8 .cbc key8 ∧ ¬ OperandUnsupported 8 .cbc (zeros 7) [] [] ∧ IvLengthWrong 8 .cbc (zeros 7)) ∧
    (KeyLengthAccepted toy8 .ctr key8 ∧ ¬ OperandUnsupported 8 .ctr [] [] [] ∧ CounterLengthWrong 8 .ctr []) ∧
    ConstructAccepted toy8 .cbc key8 iv8 [] [] ∧ ConstructAccepted toy16 .xts key32 [] [] (zeros 16) := by
  simp only [ConstructAccepted, KeyLengthAccepted, OperandUnsupported, IvLengthWrong, CounterLengthWrong]
  decide

theorem witness_OutOfPhaseCommandsRaiseInvalidState :
    ecb0.phase ≠ .idle ∧ ecb2.phase ≠ .idle ∧ ecb2.phase ≠ .ready ∧ (State.resetWith toy8).phase ≠ .ready ∧
    (State.resetWith toy8).phase = .idle := by decide

theorem witness_PhaseTransitions :
    ((State.resetWith toy8).phase = .idle ∧ ConstructAccepted toy8 .ecb key8 [] [] [] ∧
      exec (.constructEcb key8 [] [] []) (State.resetWith toy8) = .next ecb0) ∧
    ((State.resetWith toy8).phase = .idle ∧ ¬ ConstructAccepted toy8 .ecb [] [] [] []) ∧
    (ecb0.phase = .ready ∧ exec (.encLast m18) ecb0 = .next ecb2) ∧ ecb2.phase ≠ .ready ∧ ecb2.phase ≠ .idle ∧
    (xts0.phase = .ready ∧ xts0.mode = .xts ∧ xts0.pos + (zeros 15).length < xts0.bs ∧
      ∃ t, exec (.encLast (zeros 15)) xts0 = .next t) ∧
    (∃ t, exec .restart ecb2 = .next t) ∧ (∃ t, exec .destroy ecb2 = .next t) ∧ (∃ t, exec (.sr 1) ecb2 = .next t) ∧
    IllegalPacket ⟨0x40000001, []⟩ ∧
    (∃ t, step (asked ecb0 (.request (.packet ⟨0x40000001, []⟩))) = .next t) ∧
    ∃ t, step (asked ecb0 .hardwareReset) = .next t := by
  refine ⟨⟨rfl, ?_, rfl⟩, ⟨rfl, ?_⟩, ⟨rfl, rfl⟩, by decide, by decide, ⟨rfl, rfl, by decide, _, rfl⟩, ⟨_, rfl⟩, ⟨_, rfl⟩,
    ⟨_, rfl⟩, ?_, ⟨_, rfl⟩, _, rfl⟩
  · simp only [ConstructAccepted, KeyLengthAccepted, OperandUnsupported, IvLengthWrong, CounterLengthWrong]
    decide
  · simp only [ConstructAccepted, KeyLengthAccepted, OperandUnsupported, IvLengthWrong, CounterLengthWrong]
    decide
  · unfold IllegalPacket
    decide

theorem witness_ErrorsChangeOnlySticky :
    let s := asked ecb0 (.request (.packet ⟨0x10000000, []⟩))
    ∃ t, step s = .next t ∧ t.outbox = s.outbox ++ [.response 7 0 []] ∧ (7 : Word) ≠ 0 := ⟨_, rfl, rfl, by decide⟩

theorem witness_StickyRecordsEveryErrorSinceReset :
    let s : State := { State.resetWith toy8 with
      inbox := [.request (.packet ⟨0, []⟩), .request (.packet ⟨0x40000000, []⟩)] }
    (∀ e ∈ s.inbox, e ≠ .hardwareReset) ∧ s.sticky = 0 ∧
    (∃ t, run 2 s = .next t ∧ t.sticky = 0xC0 ∧ errorAnswer 7 ∈ t.outbox) ∧
    (∃ t, step { s with sticky := 2 } = .next t) ∧ (2 : BitVec 8).getLsbD 1 = true ∧
    (∀ rest, s.inbox ≠ .hardwareReset :: rest) ∧ (asked s .hardwareReset).inbox = .hardwareReset :: [] :=
  ⟨by decide, rfl, ⟨_, rfl, rfl, by decide⟩, ⟨_, rfl⟩, rfl, by simp, rfl⟩

theorem witness_InsufficientDataForXtsExactlyWhenShort :
    ∃ t, exec (.encLast (zeros 15)) xts0 = .next t ∧ xts0.phase = .ready ∧ xts0.mode = .xts ∧
      xts0.pos + (zeros 15).length < xts0.bs ∧ t.outbox = xts0.outbox ++ [errorAnswer 4] :=
  ⟨_, rfl, rfl, rfl, by decide, rfl⟩

theorem witness_StatusReadsShowTheRegisters : xts1.Inv ∧ 6 ≤ 6 ∧ statusValue 3 xts1 = 16 :=
  ⟨xts1_inv, le_rfl, by decide⟩

theorem witness_SecretsShowOnlyInOutputBytes :
    ecb0.Inv ∧ ecb0'.Inv ∧ PublicEq ecb0 ecb0' ∧ ecb0.k1 ≠ ecb0'.k1 ∧
    ∃ t t', exec (.encLast m16) ecb0 = .next t ∧ exec (.encLast m16) ecb0' = .next t' ∧ t.outbox ≠ t'.outbox :=
  ⟨ecb0_inv, ecb0'_inv, by constructor <;> decide, by decide, _, _, rfl, rfl, by decide⟩

theorem witness_KeysModeAndSeedsHaveThreeWriters :
    ∃ t, step (asked (State.resetWith toy8) (.request (.packet ⟨0x10200000, key8⟩))) = .next t ∧ t.k1 = key8 :=
  ⟨_, rfl, rfl⟩

theorem witness_PrimitiveIsAKeyedPermutation :
    toy16.accepts (key32.take 16).length = true ∧ m16.length = toy16.blockSize ∧
    (⟨1, [127], .attached⟩ : Primitive).accepts 127 = true ∧ [(0 : Byte)].length = 1 := by decide

theorem witness_IntegersOfByteStrings : 2 ^ 64 - 1 < 256 ^ 8 ∧ 0 < 256 ^ 0 := by decide

theorem witness_CounterSequence : 0 < 1 ∧ 1 < 2 ^ (8 * [(0xff : Byte)].length) := by decide

theorem witness_MultiplicationByAlpha :
    (beBytes 0x80 16).length = 16 ∧ 2 ^ 127 ≤ leInt (beBytes 0x80 16) ∧ (zeros 16).length = 16 ∧
    leInt (zeros 16) < 2 ^ 127 := by decide

theorem witness_CarryBufferIsAQueue : 7 ≤ cfb1.carry.length := by decide

theorem witness_EcbBlockOperations : ecb0.mode = .ecb := rfl
theorem witness_CbcBlockOperations : cbc0.mode = .cbc := rfl
theorem witness_CfbBlockOperations : cfb1.mode = .cfb := rfl
theorem witness_OfbBlockOperations : ofb0.mode = .ofb := rfl
theorem witness_CtrBlockOperations : ctr0.mode = .ctr := rfl

theorem witness_XtsBlockOperations :
    xts1.mode = .xts ∧ m16.length = 16 ∧ 1 ≤ (zeros 1).length ∧ (zeros 15).length ≤ 15 := by decide

theorem witness_CiphertextStealingRoundTrip :
    xts1.bs = 16 ∧ xts1.prim.accepts xts1.k1.length = true ∧ xts1.tweak.length = 16 ∧ 17 ≤ (zeros 17).length ∧
    (zeros 31).length ≤ 31 := by decide

theorem witness_EcbDataCommands : ecb0.prim.Admissible ∧ ecb0.phase = .ready ∧ ecb0.mode = .ecb :=
  ⟨toy8_admissible, rfl, rfl⟩
theorem witness_CbcDataCommands : cbc0.prim.Admissible ∧ cbc0.phase = .ready ∧ cbc0.mode = .cbc :=
  ⟨toy8_admissible, rfl, rfl⟩
theorem witness_CfbDataCommands : cfb1.prim.Admissible ∧ cfb1.phase = .ready ∧ cfb1.mode = .cfb :=
  ⟨toy8_admissible, rfl, rfl⟩
theorem witness_OfbDataCommands : ofb0.prim.Admissible ∧ ofb0.phase = .ready ∧ ofb0.mode = .ofb :=
  ⟨toy8_admissible, rfl, rfl⟩
theorem witness_CtrDataCommands : ctr0.prim.Admissible ∧ ctr0.phase = .ready ∧ ctr0.mode = .ctr :=
  ⟨toy8_admissible, rfl, rfl⟩
theorem witness_XtsDataCommandsBeforeLast : xts1.prim.Admissible ∧ xts1.phase = .ready ∧ xts1.mode = .xts :=
  ⟨toy16_admissible, rfl, rfl⟩

/-- One state for each of the two clauses: a sector that ends on a block boundary, and one that does not. -/
theorem witness_XtsDataCommandsWithLast :
    xts0.Inv ∧ xts0.phase = .ready ∧ xts0.mode = .xts ∧ 16 ≤ xts0.pos + m16.length ∧
    (xts0.carry ++ m16).length % 16 = 0 ∧
    xts1.Inv ∧ xts1.phase = .ready ∧ xts1.mode = .xts ∧ 16 ≤ xts1.pos + (zeros 1).length ∧
    (xts1.carry ++ zeros 1).length % 16 ≠ 0 :=
  ⟨xts0_inv, rfl, rfl, by decide, by decide, xts1_inv, rfl, rfl, by decide, by decide⟩

theorem witness_EmptyDataCommandChangesNothing : xts1.Inv ∧ xts1.phase = .ready ∧ cfb1.Inv ∧ cfb1.phase = .ready :=
  ⟨xts1_inv, rfl, cfb1_inv, rfl⟩

theorem witness_DataCommandFrame :
    (∃ t, exec (.enc m16) cfb1 = .next t) ∧ cfb1.phase = .ready ∧ cfb1.mode ≠ .ctr ∧ cfb1.mode ≠ .xts ∧
    ctr0.mode ∉ [Mode.cbc, .cfb, .ofb] ∧ ∃ t, exec (.decLast m18) ctr0 = .next t :=
  ⟨⟨_, rfl⟩, rfl, by decide, by decide, by decide, _, rfl⟩

theorem witness_XtsHoldsBackTheLastBlock :
    xts0.Inv ∧ xts0.phase = .ready ∧ xts0.mode = .xts ∧ xts0.bs ≤ xts0.pos + m16.length :=
  ⟨xts0_inv, rfl, rfl, by decide⟩

theorem witness_RestartReturnsToTheStateAfterConstruct :
    ctr2.phase ≠ .idle ∧ ctr2.Inv ∧ xts1.phase ≠ .idle ∧ xts1.Inv ∧ (State.resetWith toy8).phase = .idle :=
  ⟨by decide, ctr2_inv, by decide, xts1_inv, rfl⟩

theorem witness_ResponseStatesTheOutputLength :
    xts1.Inv ∧ WellFormed (.encLast [1]) = true ∧ ∀ n, Instr.encLast [1] ≠ .sr n := ⟨xts1_inv, rfl, by simp⟩

theorem witness_ChunkInvariance : xts0.Inv ∧ xts0.phase = .ready ∧ cfb1.Inv ∧ cfb1.phase = .ready :=
  ⟨xts0_inv, rfl, cfb1_inv, rfl⟩

theorem witness_OutputLength :
    xts0.Inv ∧ xts0.phase = .ready ∧ xts0.pos = 0 ∧ xts0.mode = .xts ∧ xts0.bs ≤ ([[1]].flatten ++ zeros 15).length ∧
    ecb0.Inv ∧ ecb0.phase = .ready ∧ ecb0.pos = 0 ∧ ctr0.Inv ∧ ctr0.phase = .ready ∧ ctr0.pos = 0 :=
  ⟨xts0_inv, rfl, rfl, rfl, by decide, ecb0_inv, rfl, rfl, ctr0_inv, rfl, rfl⟩

/-- CBC in pieces of 5 and 11 bytes, decrypted in pieces of 9 and 7 (program P1); and a 17-byte XTS sector. -/
theorem witness_DecryptionUndoesEncryption :
    (cbc0.Inv ∧ cbc0.phase = .ready ∧ cbc0.pos = 0 ∧
      compatible cbc0.mode cbc0.bs ([m16.take 5].flatten ++ m16.drop 5).length ∧
      ∃ t, issue (message .encrypt [m16.take 5] (m16.drop 5)) cbc0 = .next t ∧
        [beBytes 0xb18293e4f5c6d7a81a 9].flatten ++ beBytes 0x3b5c3d1e3f5031 7 = outputSince cbc0.outbox t) ∧
    xts0.Inv ∧ xts0.phase = .ready ∧ xts0.pos = 0 ∧
      compatible xts0.mode xts0.bs ([m16].flatten ++ [0x5a]).length :=
  ⟨⟨cbc0_inv, rfl, rfl, by change _ % _ = _; decide, _, rfl, by decide⟩, xts0_inv, rfl, rfl, by change _ ≤ _; decide⟩

theorem witness_ResetMeetsTheInvariant : toy16.Admissible := toy16_admissible

theorem witness_EveryStepKeepsTheInvariant :
    (asked xts1 (.request (.packet ⟨0x28000001, [0x5a]⟩))).Inv ∧
    ∃ t, step (asked xts1 (.request (.packet ⟨0x28000001, [0x5a]⟩))) = .next t ∧ t.phase = .done :=
  ⟨by constructor <;> first | exact toy16_admissible | decide, _, rfl, rfl⟩

theorem witness_EveryStepKeepsTheCursors :
    let s := asked xts1 (.request (.packet ⟨0x28000001, [0x5a]⟩))
    s.Inv ∧ s.CursorInv ∧ ∃ t, step s = .next t :=
  ⟨by constructor <;> first | exact toy16_admissible | decide, by constructor <;> decide, _, rfl⟩

end Sys2Proof.Tests
end

section
/-! Proofs: the integers of byte strings (`00_scope.md` R14). -/

namespace Sys2Proof.Machine

/-- Byte `i + 1` of `b :: a` is byte `i` of `a`, and the exponents of the big-endian sum count from the other end, so
that the weight of a byte does not change when a byte is put before it. -/
theorem beInt_eq_sum (a : Bytes) :
    beInt a = ∑ i : Fin a.length, (a.get i).toNat * 256 ^ (a.length - 1 - i.val) := by
  induction a with
  | nil => rfl
  | cons b a ih =>
    have hweight : ∀ i : ℕ, a.length - 1 - i = a.length - (i + 1) := by omega
    simp only [List.length_cons, Fin.sum_univ_succ, beInt, ih, hweight]
    simp

/-- Putting a byte before `a` multiplies the little-endian weight of every byte of `a` by 256. -/
theorem leInt_eq_sum (a : Bytes) : leInt a = ∑ i : Fin a.length, (a.get i).toNat * 256 ^ i.val := by
  induction a with
  | nil => rfl
  | cons b a ih =>
    have hweight : ∀ x i : ℕ, x * 256 ^ (i + 1) = 256 * (x * 256 ^ i) := by intro x i; ring
    simp only [List.length_cons, Fin.sum_univ_succ, leInt, ih, Finset.mul_sum]
    simp [hweight]

/-- Settles O25: the sums by induction on the string, the inverses from the laws of the byte strings, where a value
below `256 ^ n` is its own remainder. -/
theorem integersOfByteStrings : Obligations.IntegersOfByteStrings := by
  refine ⟨fun a => ⟨beInt_eq_sum a, leInt_eq_sum a, beBytes_beInt a, leBytes_leInt a⟩, fun v n hv => ?_⟩
  have hmod : v % 256 ^ n = v := Nat.mod_eq_of_lt hv
  exact ⟨length_beBytes v n, (beInt_beBytes v n).trans hmod, length_leBytes v n, (leInt_leBytes v n).trans hmod⟩

end Sys2Proof.Machine
end

section
/-! Proofs: what a step can do, by the command it executes, and what a decoded command fits (`30_encoding.md` R63 to R65,
`41_engine_commands.md` R90). -/

namespace Sys2Proof.Machine

/-! What a command does, as one relation -/

/-- All that a command can do to the state, without the packet it came in: one constructor per way it ends
(`41_engine_commands.md` R90 to R101, `60_exceptions.md` R160, `30_encoding.md` R75). -/
inductive Executes (s : State) : Instr → State → Prop
  | error (i : Instr) (e : Error) : Executes s i (s.raise e)
  | construct {mode : Mode} {key iv ctr sector : Bytes} (idle : s.phase = .idle)
      (accepted : ConstructAccepted s.prim mode key iv ctr sector) :
      Executes s (constructInstr mode key iv ctr sector) ((constructLoad mode key iv ctr sector s).seed.respond [])
  | data {dir : Dir} {last : Bool} {data : Bytes} (ready : s.phase = .ready)
      (long : ¬ (s.mode = .xts ∧ last = true ∧ s.pos + data.length < s.bs)) :
      Executes s (dataInstr dir last data)
        ((dataEffect dir last data s).2.respond (dataEffect dir last data s).1)
  | restart (started : s.phase ≠ .idle) : Executes s .restart (s.seed.respond [])
  | destroy : Executes s .destroy (s.cleared.respond [])
  | status (n : Nat) : Executes s (.sr n) { s with outbox := s.outbox ++ [.status (statusValue n s)] }

/-- The checks of CONSTRUCT find nothing only when all of them pass. -/
theorem constructAccepted_of_noError {p : Primitive} {mode : Mode} {key iv ctr sector : Bytes}
    (h : constructError p mode key iv ctr sector = none) : ConstructAccepted p mode key iv ctr sector := by
  simpa [h] using constructError_eq p mode key iv ctr sector

theorem executes_construct (mode : Mode) (key iv ctr sector : Bytes) (s : State) :
    Executes s (constructInstr mode key iv ctr sector) (construct mode key iv ctr sector s) := by
  unfold construct
  split
  · rename_i idle
    cases h : constructError s.prim mode key iv ctr sector with
    | some e => exact .error _ e
    | none => exact .construct idle (constructAccepted_of_noError h)
  · exact .error _ _

theorem executes_data (dir : Dir) (last : Bool) (data : Bytes) (s : State) :
    Executes s (dataInstr dir last data) (dataCommand dir last data s) := by
  unfold dataCommand
  split
  · rename_i ready
    split
    · exact .error _ _
    · rename_i long
      exact .data ready long
  · exact .error _ _

/-- The inversion of `exec`. -/
theorem executes_of_exec {i : Instr} {s t : State} (h : exec i s = .next t) : Executes s i t := by
  rcases instr_cases i with ⟨mode, key, iv, ctr, sector, rfl⟩ | ⟨dir, last, data, rfl⟩ | rfl | rfl | ⟨n, rfl⟩
  · rw [exec_constructInstr] at h
    cases h
    exact executes_construct mode key iv ctr sector s
  · rw [exec_dataInstr] at h
    cases h
    exact executes_data dir last data s
  · cases h
    split
    · exact .error _ _
    · rename_i started
      exact .restart started
  · cases h
    exact .destroy
  · cases h
    exact .status n

/-- All that a step can do, with the command executed by `Executes` (`41_engine_commands.md` R90). -/
theorem step_inversion {s t : State} (h : step s = .next t) :
    (s.inbox = [] ∧ t = s) ∨
    (∃ rest, s.inbox = .hardwareReset :: rest ∧ t = { s with inbox := rest }.hardwareReset) ∨
    (∃ r rest i, s.inbox = .request r :: rest ∧ decode r = .ok i ∧ Executes { s with inbox := rest } i t) ∨
    (∃ r rest, s.inbox = .request r :: rest ∧ t = { s with inbox := rest }.raise .illegalCommand) := by
  rcases step_cases s with ⟨hin, hs⟩ | ⟨rest, hin, hs⟩ | ⟨r, rest, i, hin, hd, hs⟩ | ⟨r, rest, -, hin, -, hs⟩ <;>
    rw [hs] at h
  · cases h
    exact .inl ⟨hin, rfl⟩
  · cases h
    exact .inr (.inl ⟨rest, hin, rfl⟩)
  · exact .inr (.inr (.inl ⟨r, rest, i, hin, hd, executes_of_exec h⟩))
  · cases h
    exact .inr (.inr (.inr ⟨r, rest, hin, rfl⟩))

/-! A decoded command is well-formed -/

theorem field_lt (hi lo : Nat) (w : Word) : field hi lo w < 2 ^ (hi - lo + 1) :=
  Nat.mod_lt _ (Nat.two_pow_pos _)

theorem wellFormed_constructInstr (mode : Mode) (key iv ctr sector : Bytes) :
    WellFormed (constructInstr mode key iv ctr sector) = constructFits key iv ctr sector := by
  cases mode <;> rfl

theorem wellFormed_dataInstr (dir : Dir) (last : Bool) (data : Bytes) :
    WellFormed (dataInstr dir last data) = dataFits data := by
  cases dir <;> cases last <;> rfl

theorem decodeK_wellFormed {h : Word} {payload : Bytes} {i : Instr} (hd : decodeK h payload = .ok i) :
    WellFormed i = true := by
  unfold decodeK at hd
  split at hd
  · cases hd
  · split at hd
    · cases hd
      have hk : klenOf h < 128 := field_lt 24 18 h
      have hi : ivlenOf h < 64 := field_lt 17 12 h
      have hc : clenOf h < 64 := field_lt 11 6 h
      have hn : slenOf h < 64 := field_lt 5 0 h
      simp only [wellFormed_constructInstr, constructFits, List.length_take, Bool.and_eq_true, decide_eq_true_eq]
      omega
    · cases hd

theorem decodeD_wellFormed {dir : Dir} {h : Word} {payload : Bytes} {i : Instr} (hd : decodeD dir h payload = .ok i) :
    WellFormed i = true := by
  unfold decodeD at hd
  split at hd
  · cases hd
  · split at hd
    · rename_i hl
      cases hd
      have hn : field 23 0 h < 16777216 := field_lt 23 0 h
      simp only [wellFormed_dataInstr, dataFits, decide_eq_true_eq]
      omega
    · cases hd

theorem decodeZ_eq {i j : Instr} {h : Word} {payload : Bytes} (hd : decodeZ i h payload = .ok j) : i = j := by
  unfold decodeZ at hd
  split at hd
  · cases hd
  · split at hd <;> cases hd
    rfl

/-- A command that came in a request fits the fields of its format (`30_encoding.md` R63 to R65). -/
theorem decode_wellFormed {r : Request} {i : Instr} (h : decode r = .ok i) : WellFormed i = true := by
  cases r with
  | statusRead n => cases h; rfl
  | packet p =>
    simp only [decode, decodePacket] at h
    split at h
    · exact decodeK_wellFormed h
    · exact decodeD_wellFormed h
    · exact decodeD_wellFormed h
    · rw [← decodeZ_eq h]; rfl
    · rw [← decodeZ_eq h]; rfl
    · cases h

end Sys2Proof.Machine
end

section
/-! Proofs: the chaining registers that a mode does not use keep their values (`10_state.md` R37). -/

namespace Sys2Proof.Machine

/-- `d` differs from `c` only in the chaining register that the mode uses (`41_engine_commands.md` R98). -/
structure Chain.SameUnused (mode : Mode) (c d : Chain) : Prop where
  prev : takesIv mode = false → d.prev = c.prev
  ctr : mode ≠ .ctr → d.ctr = c.ctr
  tweak : mode ≠ .xts → d.tweak = c.tweak

theorem Chain.SameUnused.refl (mode : Mode) (c : Chain) : c.SameUnused mode c :=
  ⟨fun _ => rfl, fun _ => rfl, fun _ => rfl⟩

theorem Chain.SameUnused.trans {mode : Mode} {c d e : Chain} (h : c.SameUnused mode d) (h' : d.SameUnused mode e) :
    c.SameUnused mode e :=
  ⟨fun hm => (h'.prev hm).trans (h.prev hm), fun hm => (h'.ctr hm).trans (h.ctr hm),
    fun hm => (h'.tweak hm).trans (h.tweak hm)⟩

theorem chainNext_sameUnused (dir : Dir) (mode : Mode) (p : Primitive) (k x : Bytes) (c : Chain) :
    c.SameUnused mode (chainNext dir mode p k x c) := by
  cases mode <;> cases dir <;> constructor <;> simp [chainNext, takesIv]

theorem flushChain_sameUnused (mode : Mode) (p : Primitive) (k x : Bytes) (c : Chain) :
    c.SameUnused mode (flushChain mode p k x c) := by
  cases mode <;> constructor <;> simp [flushChain, takesIv] <;> split <;> rfl

/-- Whatever the block size, `Consume` writes the chaining register of the mode, the carry buffer and the block count. -/
theorem consumeLoop_sameUnused (dir : Dir) (fuel : Nat) (s : State) :
    ∃ c b n, (consumeLoop dir fuel s).2 = s.moved c b n ∧ s.chain.SameUnused s.mode c := by
  induction fuel generalizing s with
  | zero => exact ⟨s.chain, s.carry, s.blkIdx, rfl, .refl _ _⟩
  | succ fuel ih =>
    simp only [consumeLoop]
    split
    · obtain ⟨c, b, n, h, hc⟩ := ih (blockOp dir (s.carryTake s.bs).1 (s.carryTake s.bs).2).2
      rw [blockOp_eq] at h hc ⊢
      exact ⟨c, b, n, h, (chainNext_sameUnused dir s.mode s.prim s.k1 _ s.chain).trans hc⟩
    · exact ⟨s.chain, s.carry, s.blkIdx, rfl, .refl _ _⟩

/-- Whatever the block size, what an accepted data command writes: of the chaining registers, that of the mode
(`41_engine_commands.md` R93). -/
theorem dataEffect_sameUnused (dir : Dir) (last : Bool) (data : Bytes) (s : State) :
    ∃ c b n, (dataEffect dir last data s).2 =
        { s.moved c b n with pos := s.pos + data.length, phase := if last then .done else s.phase } ∧
      s.chain.SameUnused s.mode c := by
  obtain ⟨c, b, n, h, hc⟩ := consumeLoop_sameUnused dir (s.carry ++ data).length
    { s.carryAppend data with pos := s.pos + data.length }
  cases last
  · exact ⟨c, b, n, h, hc⟩
  · refine ⟨flushChain s.mode s.prim s.k1 b c, flushCarry s.mode b, n + flushBlocks s.mode, ?_,
      hc.trans (flushChain_sameUnused s.mode s.prim s.k1 b c)⟩
    simp only [dataEffect, if_true, flush_eq]
    simp only [consume, State.carryAppend] at h ⊢
    rw [h]
    rfl

end Sys2Proof.Machine
end

section
/-! Proofs: every step keeps the invariant of the state between commands (`10_state.md` R35). -/

namespace Sys2Proof.Machine

/-! Each operation keeps the invariant -/

/-- The invariant does not speak of the ports, and of `STICKY` it asks bit 0 only. -/
theorem State.Inv.withPorts {s : State} (h : s.Inv) {sticky : BitVec 8} (h0 : sticky.getLsbD 0 = false)
    (inbox : List HostEvent) (outbox : List Answer) :
    { s with sticky := sticky, inbox := inbox, outbox := outbox }.Inv where
  __ := h
  idle_reset hp := congrArg (fun u : State => { u with sticky := sticky, inbox := inbox, outbox := outbox })
    (h.idle_reset hp)
  sticky_zero := h0

theorem State.Inv.respond {s : State} (h : s.Inv) (out : Bytes) : (s.respond out).Inv :=
  h.withPorts h.sticky_zero _ _

theorem State.Inv.raise {s : State} (h : s.Inv) (e : Error) : (s.raise e).Inv := by
  have hcode : e.code ≠ 0 := Nat.ne_of_gt (error_code_pos e)
  refine h.withPorts ?_ _ _
  rw [stickyWith_getLsbD _ _ (Nat.zero_le 7), h.sticky_zero, decide_eq_false hcode]
  rfl

/-- The reset values meet the invariant (`10_state.md` R36), with any `STICKY` whose bit 0 is clear. -/
theorem State.cleared_inv {s : State} (hp : s.prim.Admissible) (h0 : s.sticky.getLsbD 0 = false) : s.cleared.Inv where
  admissible := hp
  idle_reset _ := rfl
  len_prev := length_zeros _
  len_ctr := length_zeros _
  len_tweak := length_zeros _
  len_seedIv := length_zeros _
  len_seedCtr := length_zeros _
  len_seedSector := length_zeros _
  carry_lt _ := hp.1
  carry_xts _ := Nat.mul_pos Nat.two_pos hp.1
  carry_held hm := absurd hm (by simp)
  key_accepted hi := absurd rfl hi
  key_xts hi := absurd rfl hi
  key_other _ := rfl
  k1_le := Nat.zero_le _
  k2_le := Nat.zero_le _
  done_carry _ _ _ := rfl
  position hi := absurd hi (by simp)
  sticky_zero := h0
  unused_prev _ := ⟨rfl, rfl⟩
  unused_ctr _ := ⟨rfl, rfl⟩
  unused_tweak _ := ⟨rfl, rfl⟩

/-- What `Seed()` needs: the registers that CONSTRUCT loads before it and RESTART finds (`41_engine_commands.md` R91,
R92). -/
structure State.Loaded (s : State) : Prop where
  admissible : s.prim.Admissible
  len_seedIv : s.seedIv.length = s.bs
  len_seedCtr : s.seedCtr.length = s.bs
  len_seedSector : s.seedSector.length = 16
  key_accepted : s.prim.accepts s.k1.length = true
  key_xts : s.mode = .xts → s.k2.length = s.k1.length ∧ s.bs = 16
  key_other : s.mode ≠ .xts → s.k2 = []
  k1_le : s.k1.length ≤ 127
  k2_le : s.k2.length ≤ 63
  sticky_zero : s.sticky.getLsbD 0 = false
  unused_iv : takesIv s.mode = false → s.seedIv = zeros s.bs
  unused_ctr : s.mode ≠ .ctr → s.seedCtr = zeros s.bs
  unused_sector : s.mode ≠ .xts → s.seedSector = zeros 16

theorem State.Inv.loaded {s : State} (h : s.Inv) (started : s.phase ≠ .idle) : s.Loaded where
  __ := h
  key_accepted := h.key_accepted started
  key_xts := h.key_xts started
  unused_iv hm := (h.unused_prev hm).2
  unused_ctr hm := (h.unused_ctr hm).2
  unused_sector hm := (h.unused_tweak hm).2

/-- `Seed()` starts a message in a state of the invariant. -/
theorem State.Loaded.seed_inv {s : State} (h : s.Loaded) : s.seed.Inv where
  __ := h
  idle_reset hi := absurd hi (by simp)
  len_prev := h.len_seedIv
  len_ctr := h.len_seedCtr
  len_tweak := by
    rw [seed_tweak]
    split
    · rename_i hm
      exact (length_E _ _ _).trans (h.key_xts hm).2
    · exact length_zeros 16
  carry_lt _ := h.admissible.1
  carry_xts _ := Nat.mul_pos Nat.two_pos h.admissible.1
  carry_held _ _ hpos := absurd h.admissible.1 (Nat.not_lt.mpr hpos)
  key_accepted _ := h.key_accepted
  key_xts _ := h.key_xts
  done_carry _ _ _ := rfl
  position _ := (Nat.zero_mul _).symm
  unused_prev hm := ⟨h.unused_iv hm, h.unused_iv hm⟩
  unused_ctr hm := ⟨h.unused_ctr hm, h.unused_ctr hm⟩
  unused_tweak hm := ⟨if_neg hm, h.unused_sector hm⟩

theorem length_orZeros (n : Nat) (operand : Bytes) : (orZeros n operand).length = n := by
  unfold orZeros
  split
  · assumption
  · exact length_zeros n

/-- An absent operand gives zeros. -/
theorem orZeros_nil (n : Nat) : orZeros n [] = zeros n := by
  cases n <;> rfl

theorem length_k1_constructLoad (mode : Mode) (key iv ctr sector : Bytes) (s : State) :
    (constructLoad mode key iv ctr sector s).k1.length = if mode = .xts then key.length / 2 else key.length := by
  simp only [constructLoad]
  split
  · exact List.length_take_of_le (Nat.div_le_self _ 2)
  · rfl

theorem length_k2_constructLoad (mode : Mode) (key iv ctr sector : Bytes) (s : State) :
    (constructLoad mode key iv ctr sector s).k2.length = if mode = .xts then key.length - key.length / 2 else 0 := by
  simp only [constructLoad]
  split
  · exact List.length_drop
  · rfl

/-- The keys of an accepted CONSTRUCT have the widths of their registers, and the two halves of an XTS key are as long
as each other (`10_state.md` R22, `60_exceptions.md` R165). -/
theorem constructLoad_keys {mode : Mode} {key : Bytes} {s : State} (hk : KeyLengthAccepted s.prim mode key)
    (hkey : key.length ≤ 127) (iv ctr sector : Bytes) :
    let t := constructLoad mode key iv ctr sector s
    s.prim.accepts t.k1.length = true ∧ (mode = .xts → t.k2.length = t.k1.length) ∧
      t.k1.length ≤ 127 ∧ t.k2.length ≤ 63 := by
  intro t
  rw [length_k1_constructLoad, length_k2_constructLoad]
  rw [← keyAccepted_iff, keyAccepted] at hk
  by_cases hm : mode = .xts
  · simp only [if_pos hm, Bool.and_eq_true, beq_iff_eq] at hk ⊢
    exact ⟨hk.2, fun _ => by omega, by omega, by omega⟩
  · simp only [if_neg hm] at hk ⊢
    exact ⟨hk, fun h => absurd h hm, hkey, Nat.zero_le _⟩

theorem length_seedSector_constructLoad (mode : Mode) (key iv ctr sector : Bytes) (s : State) :
    (constructLoad mode key iv ctr sector s).seedSector.length = 16 := by
  simp only [constructLoad]
  split
  · exact length_orZeros 16 sector
  · exact length_zeros 16

/-- An operand that the mode does not take is absent, and XTS has blocks of 16 bytes (`60_exceptions.md` R171). -/
theorem operands_of_supported {bs : Nat} {mode : Mode} {iv ctr sector : Bytes}
    (h : ¬ OperandUnsupported bs mode iv ctr sector) :
    (takesIv mode = false → iv = []) ∧ (mode ≠ .ctr → ctr = []) ∧ (mode = .xts → bs = 16) := by
  cases mode <;> simp_all [takesIv, OperandUnsupported]

/-- An accepted CONSTRUCT loads what `Seed()` needs, the key's length being one that `KLEN` can hold
(`30_encoding.md` R63). -/
theorem constructLoad_loaded {mode : Mode} {key iv ctr sector : Bytes} {s : State} (hp : s.prim.Admissible)
    (h0 : s.sticky.getLsbD 0 = false) (accepted : ConstructAccepted s.prim mode key iv ctr sector)
    (hkey : key.length ≤ 127) : (constructLoad mode key iv ctr sector s).Loaded := by
  obtain ⟨hk, ho, -, -⟩ := accepted
  obtain ⟨hiv, hctr, hbs⟩ := operands_of_supported ho
  obtain ⟨haccepts, hhalves, hk1, hk2⟩ := constructLoad_keys hk hkey iv ctr sector
  exact
    { admissible := hp
      sticky_zero := h0
      len_seedIv := length_orZeros _ _
      len_seedCtr := length_orZeros _ _
      len_seedSector := length_seedSector_constructLoad mode key iv ctr sector s
      key_accepted := haccepts
      key_xts := fun hm => ⟨hhalves hm, hbs hm⟩
      key_other := fun hm => if_neg hm
      k1_le := hk1
      k2_le := hk2
      unused_iv := fun hm => (congrArg _ (hiv hm)).trans (orZeros_nil _)
      unused_ctr := fun hm => (congrArg _ (hctr hm)).trans (orZeros_nil _)
      unused_sector := fun hm => if_neg hm }

theorem Chain.Sized.flush {mode : Mode} {p : Primitive} {c : Chain} (h : c.Sized mode p.blockSize) (k x : Bytes) :
    (flushChain mode p k x c).Sized mode p.blockSize := by
  cases mode with
  | ecb | cbc | cfb => exact h
  | ofb | ctr | xts =>
    simp only [flushChain]
    split <;> constructor <;> simp [h.prev, h.ctr, h.tweak, h.xts]

/-- Processing blocks keeps the invariant, if the chaining registers keep their widths and the bytes that stay in the
carry buffer are as many as they must be. -/
theorem State.Inv.moved {s : State} (h : s.Inv) (ready : s.phase = .ready) {c : Chain} {b : Bytes} {n pos : Nat}
    {phase : Phase} (hphase : phase ≠ .idle) (hsized : c.Sized s.mode s.bs) (hunused : s.chain.SameUnused s.mode c)
    (hlt : b.length < if s.mode = .xts then 2 * s.bs else s.bs)
    (hheld : s.mode = .xts → phase = .ready → s.bs ≤ pos → s.bs ≤ b.length)
    (hdone : phase = .done → s.mode ≠ .ecb → s.mode ≠ .cbc → b = [])
    (hpos : phase = .ready → pos = n * s.bs + b.length) :
    { s.moved c b n with pos := pos, phase := phase }.Inv where
  __ := h
  idle_reset hi := absurd hi hphase
  len_prev := hsized.prev
  len_ctr := hsized.ctr
  len_tweak := hsized.tweak
  carry_lt hm := hlt.trans_eq (if_neg hm)
  carry_xts hm := hlt.trans_eq (if_pos hm)
  carry_held := hheld
  key_accepted _ := h.key_accepted (by simp [ready])
  key_xts _ := h.key_xts (by simp [ready])
  done_carry := hdone
  position := hpos
  unused_prev hm := ⟨(hunused.prev hm).trans (h.unused_prev hm).1, (h.unused_prev hm).2⟩
  unused_ctr hm := ⟨(hunused.ctr hm).trans (h.unused_ctr hm).1, (h.unused_ctr hm).2⟩
  unused_tweak hm := ⟨(hunused.tweak hm).trans (h.unused_tweak hm).1, (h.unused_tweak hm).2⟩

theorem streamed_sameUnused (dir : Dir) (last : Bool) (data : Bytes) (s : State) (hbs : 1 ≤ s.bs) :
    s.chain.SameUnused s.mode (s.streamed dir last data).chain := by
  obtain ⟨c, b, n, hmoved, hunused⟩ := dataEffect_sameUnused dir last data s
  rw [dataEffect_eq dir last data s hbs] at hmoved
  have hc : (s.streamed dir last data).chain = c := congrArg State.chain hmoved
  rwa [hc]

theorem length_flushCarry_le (mode : Mode) (x : Bytes) : (flushCarry mode x).length ≤ x.length := by
  cases mode <;> simp [flushCarry]

/-- Outside ECB and CBC nothing waits after the end of the message (`41_engine_commands.md` R96). -/
theorem flushCarry_eq_nil {mode : Mode} (hecb : mode ≠ .ecb) (hcbc : mode ≠ .cbc) (x : Bytes) :
    flushCarry mode x = [] := by
  cases mode <;> simp_all [flushCarry]

/-- An accepted data command keeps the invariant (`41_engine_commands.md` R93 to R96). -/
theorem State.Inv.streamed {s : State} (h : s.Inv) (ready : s.phase = .ready) (dir : Dir) (last : Bool) (data : Bytes) :
    (s.streamed dir last data).Inv := by
  have hbs : 1 ≤ s.bs := h.admissible.1
  have hle := readyBlocks_mul_le s.mode s.bs (s.carry ++ data).length
  have hlt := rest_lt s.mode hbs (s.carry ++ data).length
  have hsized := (h.sized (by simp [ready])).after dir s.k1 _ hle
  have hunused := streamed_sameUnused dir last data s hbs
  rw [← List.length_drop] at hlt
  cases last with
  | false =>
    refine h.moved ready (by simp [ready]) hsized hunused hlt (fun hm _ hpos => ?_) (by simp [ready]) fun _ => ?_
    · have hlen := (h.xts_buffered ready hm data.length).mp hpos
      rw [← List.length_append] at hlen
      rw [List.length_drop, hm]
      exact rest_held hbs hlen
    · have hpos := h.position ready
      rw [List.length_drop, List.length_append] at *
      simp only [Nat.add_mul]
      omega
  | true =>
    exact h.moved ready (by simp) (hsized.flush s.k1 _) hunused
      (Nat.lt_of_le_of_lt (length_flushCarry_le s.mode _) hlt) (by simp)
      (fun _ hecb hcbc => flushCarry_eq_nil hecb hcbc _) (by simp)

/-- Whatever a well-formed command does keeps the invariant. -/
theorem Executes.inv {s t : State} {i : Instr} (ht : Executes s i t) (h : s.Inv) (hi : WellFormed i = true) : t.Inv := by
  cases ht with
  | error _ e => exact h.raise e
  | construct idle accepted =>
    simp only [wellFormed_constructInstr, constructFits, Bool.and_eq_true, decide_eq_true_eq] at hi
    obtain ⟨⟨⟨hkey, -⟩, -⟩, -⟩ := hi
    exact (constructLoad_loaded h.admissible h.sticky_zero accepted hkey).seed_inv.respond []
  | data ready long =>
    rw [dataEffect_eq _ _ _ s h.admissible.1]
    exact (h.streamed ready _ _ _).respond _
  | restart started => exact (h.loaded started).seed_inv.respond []
  | destroy => exact (State.cleared_inv h.admissible h.sticky_zero).respond []
  | status n => exact h.withPorts h.sticky_zero _ _

/-- Settles O53: an event is taken from the inbox, of which the invariant does not speak; then the command keeps the
invariant, a hardware reset gives the reset values, and an illegal packet raises an error. -/
theorem everyStepKeepsTheInvariant : Obligations.EveryStepKeepsTheInvariant := by
  intro s t h hs
  have taken (rest : List HostEvent) : { s with inbox := rest }.Inv := h.withPorts h.sticky_zero _ _
  rcases step_inversion hs with ⟨-, rfl⟩ | ⟨rest, -, rfl⟩ | ⟨r, rest, i, -, hd, ht⟩ | ⟨r, rest, -, rfl⟩
  · exact h
  · exact State.cleared_inv (s := { s with inbox := rest, sticky := 0 }) h.admissible BitVec.getLsbD_zero
  · exact ht.inv (taken rest) (decode_wellFormed hd)
  · exact (taken rest).raise _

end Sys2Proof.Machine
end

section
/-! Proofs: the reset values (`10_state.md` R36). -/

namespace Sys2Proof.Machine

theorem attached_admissible : Config.attached.Admissible := by
  refine ⟨Nat.le_add_left 1 _, ?_, by simp [Config.attached], by simp [Config.attached]⟩
  have := Nat.mod_lt Config.blockSizeSeed (y := 63) (by decide)
  simp only [Config.attached]
  omega

/-- After reset, `SR0` shows the block size and every other status register 0. -/
theorem statusValue_resetWith {p : Primitive} (hp : p.Admissible) (n : Nat) :
    (statusValue n (State.resetWith p)).toNat = if n = 0 then p.blockSize else 0 := by
  obtain ⟨-, hle, -, -⟩ := hp
  match n with
  | 0 =>
    change (BitVec.ofNat 32 (p.blockSize % 2 ^ 8)).toNat = p.blockSize
    rw [BitVec.toNat_ofNat]
    omega
  | 1 | 2 | 3 | 4 | 5 | _ + 6 => rfl

/-- Settles O9: the record is the table itself; the attached primitive is admissible whatever the free constants are. -/
theorem resetStateHoldsTheResetValues : Obligations.ResetStateHoldsTheResetValues :=
  ⟨rfl, attached_admissible, statusValue_resetWith attached_admissible, fun _ hp => ⟨rfl, statusValue_resetWith hp⟩⟩

/-- The cursors are spoken of outside IDLE only. -/
theorem State.cursorInv_of_idle {s : State} (idle : s.phase = .idle) : s.CursorInv := by
  constructor <;> simp [idle]

theorem State.resetWith_inv {p : Primitive} (hp : p.Admissible) : (State.resetWith p).Inv :=
  cleared_inv (s := State.resetWith p) hp BitVec.getLsbD_zero

/-- Settles O52: the reset values meet the invariant, and the cursors are not used in IDLE. -/
theorem resetMeetsTheInvariant : Obligations.ResetMeetsTheInvariant :=
  ⟨State.resetWith_inv attached_admissible, State.cursorInv_of_idle rfl,
    fun _ hp => ⟨State.resetWith_inv hp, State.cursorInv_of_idle rfl⟩⟩

end Sys2Proof.Machine
end

section
/-! Proofs: what a command and a data command leave unchanged (`10_state.md` R21, R22, R26, R37). -/

namespace Sys2Proof.Machine

theorem takesIv_of_notMem {mode : Mode} (h : mode ∉ [Mode.cbc, .cfb, .ofb]) : takesIv mode = false := by
  cases mode <;> simp_all [takesIv]

/-- Settles O45: an accepted data command writes the carry buffer, the counts, the phase and the chaining register of
the mode, before its response; one that raises an error writes `STICKY`. -/
theorem dataCommandFrame : Obligations.DataCommandFrame := by
  intro dir last data s t ht
  rw [exec_dataInstr] at ht
  cases ht
  unfold dataCommand
  split
  · split
    · rename_i short
      simp [short]
    · obtain ⟨c, b, n, hw, hc⟩ := dataEffect_sameUnused dir last data s
      simp only [hw]
      exact ⟨rfl, rfl, rfl, rfl, rfl, rfl, rfl, rfl, fun hm => hc.prev (takesIv_of_notMem hm), hc.ctr, hc.tweak,
        fun _ _ => rfl⟩
  · rename_i hp
    simp [hp]

/-- The registers that CONSTRUCT, DESTROY and hardware reset alone write (`10_state.md` R21, R22, R26). -/
def State.SameSetup (s t : State) : Prop :=
  t.mode = s.mode ∧ t.k1 = s.k1 ∧ t.k2 = s.k2 ∧ t.seedIv = s.seedIv ∧ t.seedCtr = s.seedCtr ∧
    t.seedSector = s.seedSector

/-- Every command but an accepted CONSTRUCT and DESTROY leaves the mode, the keys and the seeds. -/
theorem Executes.sameSetup {s t : State} {i : Instr} (h : Executes s i t) :
    s.SameSetup t ∨ i = .destroy ∨
    ∃ mode key iv ctr sector, i = constructInstr mode key iv ctr sector ∧ s.phase = .idle ∧
      ConstructAccepted s.prim mode key iv ctr sector ∧ t.phase = .ready := by
  cases h with
  | error | restart | status => exact .inl ⟨rfl, rfl, rfl, rfl, rfl, rfl⟩
  | construct idle accepted => exact .inr (.inr ⟨_, _, _, _, _, rfl, idle, accepted, rfl⟩)
  | @data dir last data =>
    obtain ⟨c, b, n, hw, -⟩ := dataEffect_sameUnused dir last data s
    rw [hw]
    exact .inl ⟨rfl, rfl, rfl, rfl, rfl, rfl⟩
  | destroy => exact .inr (.inl rfl)

/-- Settles O23: by the inversion of the step, only the executed command can write these registers. -/
theorem keysModeAndSeedsHaveThreeWriters : Obligations.KeysModeAndSeedsHaveThreeWriters := by
  intro s t hs
  rcases step_inversion hs with ⟨-, rfl⟩ | ⟨rest, hin, rfl⟩ | ⟨r, rest, i, hin, hd, ht⟩ | ⟨r, rest, -, rfl⟩
  · exact .inl ⟨rfl, rfl, rfl, rfl, rfl, rfl⟩
  · exact .inr (.inl ⟨rest, hin⟩)
  · rcases ht.sameSetup with h | rfl | ⟨mode, key, iv, ctr, sector, rfl, idle, accepted, ready⟩
    · exact .inl h
    · exact .inr (.inr (.inl ⟨r, rest, hin, hd⟩))
    · exact .inr (.inr (.inr ⟨r, rest, mode, key, iv, ctr, sector, hin, hd, idle, accepted, ready⟩))
  · exact .inl ⟨rfl, rfl, rfl, rfl, rfl, rfl⟩

end Sys2Proof.Machine
end

section
/-! Proofs: the error log (`10_state.md` R30). -/

namespace Sys2Proof.Machine

/-- `t` follows `s` with `answers` given out, and `STICKY` has gained exactly the bits of the errors among them. -/
def State.Logs (s : State) (answers : List Answer) (t : State) : Prop :=
  t.outbox = s.outbox ++ answers ∧
  ∀ n ≤ 7, t.sticky.getLsbD n = true ↔ s.sticky.getLsbD n = true ∨ 1 ≤ n ∧ errorAnswer n ∈ answers

theorem State.Logs.refl (s : State) : s.Logs [] s := ⟨(List.append_nil _).symm, by simp⟩

theorem State.Logs.trans {s t u : State} {a b : List Answer} (h : s.Logs a t) (h' : t.Logs b u) :
    s.Logs (a ++ b) u := by
  refine ⟨by rw [h'.1, h.1, List.append_assoc], fun n hn => ?_⟩
  rw [h'.2 n hn, h.2 n hn, List.mem_append]
  tauto

/-- An answer that is no error, with `STICKY` kept. -/
theorem State.Logs.of_noError {s t : State} {a : Answer} (hout : t.outbox = s.outbox ++ [a])
    (hsticky : t.sticky = s.sticky) (ha : ∀ n, 1 ≤ n → n ≤ 7 → a ≠ errorAnswer n) : s.Logs [a] t := by
  refine ⟨hout, fun n hn => ?_⟩
  have hmem (h1 : 1 ≤ n) : errorAnswer n ∉ [a] := fun h => ha n h1 hn (List.mem_singleton.mp h).symm
  rw [hsticky]
  tauto

theorem raise_logs (s : State) (e : Error) : s.Logs [errorAnswer e.code] (s.raise e) := by
  refine ⟨rfl, fun n hn => ?_⟩
  have hmem : errorAnswer n ∈ [errorAnswer e.code] ↔ e.code = n := by
    rw [List.mem_singleton]
    exact ⟨fun h => (errorAnswer_injective hn (error_code_le e) h).symm, fun h => by rw [h]⟩
  have h1 : e.code = n → 1 ≤ n := fun h => h ▸ error_code_pos e
  rw [State.raise_sticky, stickyWith_getLsbD _ _ hn, Bool.or_eq_true, decide_eq_true_eq, hmem]
  tauto

theorem exec_logs {i : Instr} {s t : State} (h : exec i s = .next t) : ∃ answers, s.Logs answers t := by
  rcases exec_answer i s with ⟨u, out, hu, hout, hsticky, -, -⟩ | ⟨e, he⟩ | ⟨n, -, hn⟩
  · cases hu.symm.trans h
    exact ⟨_, .of_noError hout hsticky fun n => okAnswer_ne_errorAnswer out⟩
  · cases he.symm.trans h
    exact ⟨_, raise_logs s e⟩
  · cases hn.symm.trans h
    exact ⟨_, .of_noError rfl rfl fun _ _ _ => by simp [errorAnswer]⟩

/-- A step that is no hardware reset logs the errors it answers with. -/
theorem step_logs {s t : State} (h : step s = .next t) (hr : ∀ rest, s.inbox ≠ .hardwareReset :: rest) :
    ∃ answers, s.Logs answers t := by
  rcases step_cases s with ⟨-, hs⟩ | ⟨rest, hin, -⟩ | ⟨r, rest, i, -, -, hs⟩ | ⟨r, rest, e, -, -, hs⟩
  · cases hs.symm.trans h
    exact ⟨[], .refl s⟩
  · exact absurd hin (hr rest)
  · exact exec_logs (s := { s with inbox := rest }) (hs.symm.trans h)
  · cases hs.symm.trans h
    exact ⟨_, raise_logs { s with inbox := rest } _⟩

/-- A command takes nothing from the inbox; the step has taken its request. -/
theorem Executes.inbox {s t : State} {i : Instr} (h : Executes s i t) : t.inbox = s.inbox := by
  cases h with
  | @data dir last data =>
    obtain ⟨c, b, n, hw, -⟩ := dataEffect_sameUnused dir last data s
    rw [hw]
    rfl
  | _ => rfl

theorem step_inbox {s t : State} (h : step s = .next t) : t.inbox = s.inbox.tail := by
  rcases step_inversion h with ⟨hin, rfl⟩ | ⟨rest, hin, rfl⟩ | ⟨r, rest, i, hin, -, ht⟩ | ⟨r, rest, hin, rfl⟩
  · rw [hin, List.tail_nil]
  · rw [hin]
    rfl
  · rw [hin]
    exact ht.inbox
  · rw [hin]
    rfl

/-- A run without hardware reset logs the errors it answers with. -/
theorem run_logs {k : Nat} {s t : State} (hr : ∀ e ∈ s.inbox, e ≠ .hardwareReset) (h : run k s = .next t) :
    ∃ answers, s.Logs answers t := by
  induction k generalizing s with
  | zero =>
    cases h
    exact ⟨[], .refl _⟩
  | succ k ih =>
    simp only [run] at h
    split at h
    · rename_i u hs
      obtain ⟨a, ha⟩ := step_logs hs fun rest hin => hr .hardwareReset (by simp [hin]) rfl
      obtain ⟨b, hb⟩ := ih (fun e he => hr e (List.mem_of_mem_tail (step_inbox hs ▸ he))) h
      exact ⟨a ++ b, ha.trans hb⟩
    · cases h
    · cases h

/-- Settles O19: from a clear `STICKY` the bits set are those of the errors in the log; a step adds to it; reset
clears it. -/
theorem stickyRecordsEveryErrorSinceReset : Obligations.StickyRecordsEveryErrorSinceReset := by
  refine ⟨fun k s t hr h0 h => ?_, fun s t h hr n hn => ?_, fun s rest hin => ?_⟩
  · obtain ⟨answers, hout, hbits⟩ := run_logs hr h
    have hclear (n : Nat) : s.sticky.getLsbD n = false := by rw [h0]; exact BitVec.getLsbD_zero
    simp only [hclear, Bool.false_eq_true, false_or] at hbits
    refine ⟨answers, hout, ?_, fun n h1 h7 => (hbits n h7).trans (and_iff_right h1)⟩
    rw [← Bool.not_eq_true, hbits 0 (Nat.zero_le 7)]
    omega
  · obtain ⟨answers, -, hbits⟩ := step_logs h hr
    have hlt : n < 8 := BitVec.lt_of_getLsbD hn
    exact (hbits n (by omega)).mpr (.inl hn)
  · exact ⟨{ s with inbox := rest }.hardwareReset, by simp only [step, hin], rfl⟩

end Sys2Proof.Machine
end

section
/-! Proofs: the status registers (`10_state.md` R31 to R33). -/

namespace Sys2Proof.Machine

/-- Bits `hi..lo` of the 32-bit word of a number are the digits the number has there. -/
theorem extractLsb_ofNat_toNat (hi lo x : Nat) :
    ((BitVec.ofNat 32 x).extractLsb hi lo).toNat = x % 2 ^ 32 / 2 ^ lo % 2 ^ (hi - lo + 1) := by
  rw [BitVec.extractLsb_toNat, BitVec.toNat_ofNat, Nat.shiftRight_eq_div_pow]

theorem phase_number_lt (p : Phase) : p.number < 3 := by cases p <;> decide

/-- Settles O21: each register's value fits the field that shows it. -/
theorem statusReadsShowTheRegisters : Obligations.StatusReadsShowTheRegisters := by
  intro n s
  refine ⟨statusValue n s, rfl, fun hn => ?_, fun h => ?_⟩
  · obtain ⟨m, rfl⟩ := Nat.exists_eq_add_of_le' hn
    rfl
  · have hbs : s.bs ≤ 63 := h.admissible.2.1
    have hcarry : s.carry.length < 126 := by
      by_cases hm : s.mode = .xts
      · exact (h.carry_xts hm).trans_le (by omega)
      · exact (h.carry_lt hm).trans_le (by omega)
    have hphase := phase_number_lt s.phase
    have hmode := mode_number_lt s.mode
    have hsticky := s.sticky.isLt
    refine ⟨?_, ?_, ?_, ?_, ?_, ?_⟩ <;> rintro rfl
    all_goals
      simp only [statusValue, ← BitVec.toNat_inj, extractLsb_ofNat_toNat, BitVec.toNat_ofNat]
      omega

end Sys2Proof.Machine
end

section
/-! Proofs: what a host may learn (`10_state.md` R34). -/

namespace Sys2Proof.Machine

/-- Answers that differ in the output bytes only, given out by states that agree. -/
theorem PublicEq.respond {s t : State} (h : PublicEq s t) {a b : Bytes} (hl : a.length = b.length) :
    PublicEq (s.respond a) (t.respond b) where
  __ := h
  outbox := by simp [h.outbox, Answer.shape, hl]

theorem PublicEq.raise {s t : State} (h : PublicEq s t) (e : Error) : PublicEq (s.raise e) (t.raise e) where
  __ := h
  sticky := congrArg (stickyWith · e) h.sticky
  outbox := by simp [h.outbox]

theorem PublicEq.bs {s t : State} (h : PublicEq s t) : s.bs = t.bs := congrArg Primitive.blockSize h.prim

theorem PublicEq.statusValue {s t : State} (h : PublicEq s t) (n : Nat) : statusValue n s = statusValue n t := by
  unfold Machine.statusValue
  split <;> simp [h.bs, h.phase, h.mode, h.sticky, h.carry, h.pos, h.blkIdx]

/-- `Seed()` writes public registers with fixed values. -/
theorem PublicEq.seed {s t : State} (h : PublicEq s t) : PublicEq s.seed t.seed where
  __ := h
  phase := rfl
  carry := rfl
  pos := rfl
  blkIdx := rfl

theorem PublicEq.cleared {s t : State} (h : PublicEq s t) : PublicEq s.cleared t.cleared where
  __ := h
  phase := rfl
  mode := rfl
  carry := rfl
  pos := rfl
  blkIdx := rfl

theorem PublicEq.constructLoad {s t : State} (h : PublicEq s t) (mode : Mode) (key iv ctr sector : Bytes) :
    PublicEq (constructLoad mode key iv ctr sector s) (constructLoad mode key iv ctr sector t) where
  __ := h
  mode := rfl

/-- CONSTRUCT decides on the phase, the primitive and its operands. -/
theorem PublicEq.construct {s t : State} (h : PublicEq s t) (mode : Mode) (key iv ctr sector : Bytes) :
    PublicEq (construct mode key iv ctr sector s) (construct mode key iv ctr sector t) := by
  simp only [Machine.construct, h.phase, h.prim]
  split
  · split
    · exact h.raise _
    · exact (h.constructLoad mode key iv ctr sector).seed.respond rfl
  · exact h.raise _

/-- How many bytes `Flush` leaves is decided by how many wait. -/
theorem length_flushCarry {m m' : Mode} (hm : m = m') {x y : Bytes} (h : x.length = y.length) :
    (flushCarry m x).length = (flushCarry m' y).length := by
  subst hm
  cases m <;> simp [flushCarry, h]

/-- How many blocks an accepted data command processes is decided by how many bytes wait. -/
theorem PublicEq.streamed {s t : State} (h : PublicEq s t) (dir : Dir) (last : Bool) (data : Bytes) :
    PublicEq (s.streamed dir last data) (t.streamed dir last data) := by
  have hlen : (s.carry ++ data).length = (t.carry ++ data).length := by simp [h.carry]
  have hrest : ((s.carry ++ data).drop (readyBlocks s.mode s.bs (s.carry ++ data).length * s.bs)).length =
      ((t.carry ++ data).drop (readyBlocks t.mode t.bs (t.carry ++ data).length * t.bs)).length := by
    rw [List.length_drop, List.length_drop, hlen, h.mode, h.bs]
  have hblk : s.blkIdx + readyBlocks s.mode s.bs (s.carry ++ data).length =
      t.blkIdx + readyBlocks t.mode t.bs (t.carry ++ data).length := by
    rw [hlen, h.mode, h.bs, h.blkIdx]
  cases last with
  | false =>
    exact { h with carry := hrest, pos := congrArg (· + data.length) h.pos, blkIdx := hblk }
  | true =>
    exact
      { h with
        phase := rfl
        carry := length_flushCarry h.mode hrest
        pos := congrArg (· + data.length) h.pos
        blkIdx := congrArg₂ (· + ·) hblk (congrArg flushBlocks h.mode) }

/-- The length of a data command's output is decided by how many bytes wait, too. -/
theorem PublicEq.dataCommand {s t : State} (h : PublicEq s t) (hs : s.Inv) (ht : t.Inv) (dir : Dir) (last : Bool)
    (data : Bytes) : PublicEq (dataCommand dir last data s) (dataCommand dir last data t) := by
  by_cases ready : s.phase = .ready
  · have ready' : t.phase = .ready := h.phase ▸ ready
    by_cases short : s.mode = .xts ∧ last = true ∧ s.pos + data.length < s.bs
    · have short' : t.mode = .xts ∧ last = true ∧ t.pos + data.length < t.bs := by
        rwa [h.mode, h.pos, h.bs] at short
      rw [dataCommand_short dir last data s ready short, dataCommand_short dir last data t ready' short']
      exact h.raise _
    · have short' : ¬ (t.mode = .xts ∧ last = true ∧ t.pos + data.length < t.bs) := by
        rwa [h.mode, h.pos, h.bs] at short
      rw [dataCommand_ready dir last data s hs.admissible.1 ready short,
        dataCommand_ready dir last data t ht.admissible.1 ready' short']
      refine (h.streamed dir last data).respond ?_
      rw [hs.length_streamOut ready dir last data short, ht.length_streamOut ready' dir last data short', h.mode, h.bs,
        h.carry]
  · have ready' : t.phase ≠ .ready := h.phase ▸ ready
    rw [dataCommand_phase dir last data s ready, dataCommand_phase dir last data t ready']
    exact h.raise _

/-- Settles O22: by family of commands, each decides on public registers and the lengths of its operands only. -/
theorem secretsShowOnlyInOutputBytes : Obligations.SecretsShowOnlyInOutputBytes := by
  intro i s s' t t' hs hs' h ht ht'
  rcases instr_cases i with ⟨mode, key, iv, ctr, sector, rfl⟩ | ⟨dir, last, data, rfl⟩ | rfl | rfl | ⟨n, rfl⟩
  · rw [exec_constructInstr] at ht ht'
    cases ht
    cases ht'
    exact h.construct mode key iv ctr sector
  · rw [exec_dataInstr] at ht ht'
    cases ht
    cases ht'
    exact h.dataCommand hs hs' dir last data
  · cases ht
    cases ht'
    rw [h.phase]
    split
    · exact h.raise _
    · exact h.seed.respond rfl
  · cases ht
    cases ht'
    exact h.cleared.respond rfl
  · cases ht
    cases ht'
    exact { h with outbox := by simp [h.outbox, h.statusValue n] }

end Sys2Proof.Machine
end

section
/-! Proofs: the commands in order and the carry buffer (`20_memory.md` R41, R42, R47, R51). -/

namespace Sys2Proof.Machine

theorem step_of_inbox_nil {s : State} (hin : s.inbox = []) : step s = .next s := by
  simp only [step, hin]

/-- A request that decodes is taken from the inbox and its command executed (`41_engine_commands.md` R90). -/
theorem step_of_decode {s : State} {r : Request} {rest : List HostEvent} {i : Instr}
    (hin : s.inbox = .request r :: rest) (hd : decode r = .ok i) : step s = exec i { s with inbox := rest } := by
  simp only [step, hin, hd]

/-- Settles O7: the two cases of a step in which no error is raised and no reset happens. -/
theorem stepExecutesTheDecodedCommand : Obligations.StepExecutesTheDecodedCommand :=
  fun _ => ⟨fun _ _ _ hin hd => step_of_decode hin hd, step_of_inbox_nil⟩

/-- Settles O29: the bytes taken and the bytes left are `List.take` and `List.drop` of the buffer. -/
theorem carryBufferIsAQueue : Obligations.CarryBufferIsAQueue := by
  refine fun s d n => ⟨rfl, fun hn => ⟨?_, ?_, rfl⟩⟩
  · rw [State.carryTake_fst, List.length_take_of_le hn]
  · rw [State.carryTake_fst, State.carryTake_carry, List.take_append_drop]

end Sys2Proof.Machine
end

section
/-! Proofs: the decoder and the encoder are inverse to each other, and a header is read from the bit positions and by the
opcode rows of the spec (`30_encoding.md` R62 to R70). -/

namespace Sys2Proof.Machine

/-! From a command to its packet and back -/

theorem encode_constructInstr (mode : Mode) (key iv ctr sector : Bytes) :
    encode (constructInstr mode key iv ctr sector) = encodeK mode key iv ctr sector := by
  cases mode <;> rfl

theorem encode_dataInstr (dir : Dir) (last : Bool) (data : Bytes) :
    encode (dataInstr dir last data) = encodeD dir last data := by
  cases dir <;> cases last <;> rfl

/-- Settles O1: by family of commands; formats K and D read back what they were given. -/
theorem decodeOfEncodeIsTheCommand : Obligations.DecodeOfEncodeIsTheCommand := by
  intro i hi
  rcases instr_cases i with ⟨mode, key, iv, ctr, sector, rfl⟩ | ⟨dir, last, data, rfl⟩ | rfl | rfl | ⟨n, rfl⟩
  · rw [encode_constructInstr]
    exact decode_encodeK mode (wellFormed_constructInstr mode key iv ctr sector ▸ hi)
  · rw [encode_dataInstr]
    exact decode_encodeD dir last (wellFormed_dataInstr dir last data ▸ hi)
  · rfl
  · rfl
  · rfl

/-! From a packet to its command and back -/

/-- The fields of the header `h` and the bytes of `payload` are those of a command, in the words of the formats
K, D and Z (`30_encoding.md` R63 to R66). -/
inductive Reads (h : Word) (payload : Bytes) : Instr → Prop
  | construct {mode : Mode} {key iv ctr sector : Bytes} (op : field 31 28 h = 1)
      (number : field 27 25 h = mode.number) (klen : key.length = klenOf h) (ivlen : iv.length = ivlenOf h)
      (clen : ctr.length = clenOf h) (slen : sector.length = slenOf h)
      (cut : key ++ (iv ++ (ctr ++ sector)) = payload) : Reads h payload (constructInstr mode key iv ctr sector)
  | data {dir : Dir} {last : Bool} (op : field 31 28 h = dirOp dir) (flag : field 27 27 h = last.toNat)
      (zero : field 26 24 h = 0) (dlen : payload.length = field 23 0 h) : Reads h payload (dataInstr dir last payload)
  | restart (op : field 31 28 h = 4) (zero : field 27 0 h = 0) (empty : payload = []) : Reads h payload .restart
  | destroy (op : field 31 28 h = 5) (zero : field 27 0 h = 0) (empty : payload = []) : Reads h payload .destroy

/-- A payload of the length that a format K header declares falls into the four operands (`30_encoding.md` R66). -/
theorem exists_operands {h : Word} {payload : Bytes}
    (hl : payload.length = klenOf h + ivlenOf h + clenOf h + slenOf h) :
    ∃ key iv ctr sector : Bytes, key ++ (iv ++ (ctr ++ sector)) = payload ∧ key.length = klenOf h ∧
      iv.length = ivlenOf h ∧ ctr.length = clenOf h ∧ sector.length = slenOf h := by
  refine ⟨_, _, _, _, cut_four payload hl, ?_, ?_, ?_, ?_⟩ <;> simp only [List.length_take, List.length_drop] <;> omega

/-- The widths of the four length fields (`30_encoding.md` R63). -/
theorem lengthFields_le (h : Word) : klenOf h ≤ 127 ∧ ivlenOf h ≤ 63 ∧ clenOf h ≤ 63 ∧ slenOf h ≤ 63 :=
  ⟨Nat.le_of_lt_succ (field_lt 24 18 h), Nat.le_of_lt_succ (field_lt 17 12 h), Nat.le_of_lt_succ (field_lt 11 6 h),
    Nat.le_of_lt_succ (field_lt 5 0 h)⟩

theorem dlen_le (h : Word) : field 23 0 h ≤ 16777215 := Nat.le_of_lt_succ (field_lt 23 0 h)

theorem headerK_of_fields {h : Word} {mode : Mode} (op : field 31 28 h = 1) (number : field 27 25 h = mode.number) :
    headerK mode (klenOf h) (ivlenOf h) (clenOf h) (slenOf h) = h := by
  obtain ⟨hk, hi, hc, hn⟩ := lengthFields_le h
  apply BitVec.eq_of_toNat_eq
  rw [headerK_toNat mode hk hi hc hn]
  simp only [field, klenOf, ivlenOf, clenOf, slenOf] at *
  omega

theorem headerD_of_fields {h : Word} {dir : Dir} {last : Bool} (op : field 31 28 h = dirOp dir)
    (flag : field 27 27 h = last.toNat) (zero : field 26 24 h = 0) : headerD dir last (field 23 0 h) = h := by
  apply BitVec.eq_of_toNat_eq
  rw [headerD_toNat dir last (dlen_le h)]
  simp only [field] at *
  omega

theorem headerZ_of_fields {h : Word} (zero : field 27 0 h = 0) : headerZ (field 31 28 h) = h := by
  apply BitVec.eq_of_toNat_eq
  simp only [headerZ, field, BitVec.toNat_ofNat] at *
  omega

/-- The fields leave no bit of the header and no byte of the payload open. -/
theorem Reads.encode_eq {h : Word} {payload : Bytes} {i : Instr} (hr : Reads h payload i) :
    encode i = .packet ⟨h, payload⟩ := by
  cases hr with
  | construct op number klen ivlen clen slen cut =>
    rw [encode_constructInstr, encodeK, klen, ivlen, clen, slen, headerK_of_fields op number, List.append_assoc,
      List.append_assoc, cut]
  | data op flag zero dlen => rw [encode_dataInstr, encodeD, dlen, headerD_of_fields op flag zero]
  | restart op zero empty => rw [encode, ← op, headerZ_of_fields zero, empty]
  | destroy op zero empty => rw [encode, ← op, headerZ_of_fields zero, empty]

theorem Reads.wellFormed {h : Word} {payload : Bytes} {i : Instr} (hr : Reads h payload i) : WellFormed i = true := by
  cases hr with
  | construct op number klen ivlen clen slen cut =>
    obtain ⟨hk, hi, hc, hn⟩ := lengthFields_le h
    simp [wellFormed_constructInstr, constructFits, klen, ivlen, clen, slen, hk, hi, hc, hn]
  | data op flag zero dlen =>
    simp [wellFormed_dataInstr, dataFits, dlen, dlen_le h]
  | restart | destroy => rfl

/-- The packet that a command's fields are read from is its encoding, and so decodes to it. -/
theorem Reads.decode_eq {h : Word} {payload : Bytes} {i : Instr} (hr : Reads h payload i) :
    decode (.packet ⟨h, payload⟩) = .ok i := by
  rw [← hr.encode_eq]
  exact decodeOfEncodeIsTheCommand i hr.wellFormed

theorem decodeK_reads {h : Word} {payload : Bytes} {i : Instr} (op : field 31 28 h = 1)
    (hd : decodeK h payload = .ok i) : Reads h payload i := by
  unfold decodeK at hd
  split at hd
  · cases hd
  · rename_i mode number
    split at hd
    · rename_i hl
      cases hd
      refine .construct op (modeOfNumber_eq_some number) ?_ ?_ ?_ ?_ (cut_four payload hl) <;>
        simp only [List.length_take, List.length_drop] <;> omega
    · cases hd

theorem decodeD_reads {h : Word} {payload : Bytes} {i : Instr} {dir : Dir} (op : field 31 28 h = dirOp dir)
    (hd : decodeD dir h payload = .ok i) : Reads h payload i := by
  unfold decodeD at hd
  split at hd
  · cases hd
  · rename_i zero
    split at hd
    · rename_i dlen
      cases hd
      have hbit : field 27 27 h < 2 := field_lt 27 27 h
      refine .data op ?_ (not_not.mp zero) dlen
      interval_cases field 27 27 h <;> rfl
    · cases hd

theorem decodeZ_fields {h : Word} {payload : Bytes} {i j : Instr} (hd : decodeZ i h payload = .ok j) :
    field 27 0 h = 0 ∧ payload = [] := by
  unfold decodeZ at hd
  split at hd
  · cases hd
  · rename_i zero
    split at hd
    · rename_i hl
      exact ⟨not_not.mp zero, eq_nil_of_length_zero hl⟩
    · cases hd

/-- The inversion of the decoder (`30_encoding.md` R69). -/
theorem reads_of_decode {h : Word} {payload : Bytes} {i : Instr} (hd : decode (.packet ⟨h, payload⟩) = .ok i) :
    Reads h payload i := by
  simp only [decode, decodePacket] at hd
  split at hd
  · rename_i op
    exact decodeK_reads op hd
  · rename_i op
    exact decodeD_reads (dir := .encrypt) op hd
  · rename_i op
    exact decodeD_reads (dir := .decrypt) op hd
  · rename_i op
    obtain ⟨zero, empty⟩ := decodeZ_fields hd
    exact decodeZ_eq hd ▸ .restart op zero empty
  · rename_i op
    obtain ⟨zero, empty⟩ := decodeZ_fields hd
    exact decodeZ_eq hd ▸ .destroy op zero empty
  · cases hd

/-- Settles O2: a packet that decodes has the fields of its command, which are all of it. -/
theorem encodeOfDecodeIsTheRequest : Obligations.EncodeOfDecodeIsTheRequest := by
  intro r i hd
  refine ⟨decode_wellFormed hd, ?_⟩
  cases r with
  | packet p => exact (reads_of_decode hd).encode_eq
  | statusRead n =>
    cases hd
    rfl

/-! The bit positions -/

theorem extractLsb_toNat_eq_field (hi lo : Nat) (h : Word) : (h.extractLsb hi lo).toNat = field hi lo h := by
  rw [BitVec.extractLsb_toNat, Nat.shiftRight_eq_div_pow, field]

/-- A field that holds a given bit string. -/
theorem field_of_extractLsb {hi lo : Nat} {h : Word} {v : BitVec (hi - lo + 1)} (hv : h.extractLsb hi lo = v) :
    field hi lo h = v.toNat := by
  rw [← extractLsb_toNat_eq_field, hv]

theorem field_one_bit (n : Nat) (h : Word) : field n n h = (h.getLsbD n).toNat := by
  rw [field, BitVec.getLsbD, Nat.toNat_testBit, Nat.sub_self, Nat.zero_add, Nat.pow_one]

/-- Settles O3: the decoder's fields are the bit strings of `extractLsb`. -/
theorem formatsAreReadBitByBit : Obligations.FormatsAreReadBitByBit := by
  intro h payload
  simp only [extractLsb_toNat_eq_field]
  refine ⟨fun mode op number hl => ?_, fun dir op zero dlen => ?_, fun zero empty => ⟨fun op => ?_, fun op => ?_⟩⟩
  · obtain ⟨key, iv, ctr, sector, cut, klen, ivlen, clen, slen⟩ := exists_operands hl
    have hr : Reads h payload (constructInstr mode key iv ctr sector) :=
      .construct (field_of_extractLsb op) number klen ivlen clen slen cut
    exact ⟨key, iv, ctr, sector, cut.symm, klen, ivlen, clen, slen, hr.decode_eq⟩
  · have hop : field 31 28 h = dirOp dir := by
      cases dir <;> exact field_of_extractLsb op
    have hr : Reads h payload (dataInstr dir (h.getLsbD 27) payload) :=
      .data hop (field_one_bit 27 h) (field_of_extractLsb zero) dlen
    exact hr.decode_eq
  · have hr : Reads h payload .restart := .restart (field_of_extractLsb op) (field_of_extractLsb zero) empty
    exact hr.decode_eq
  · have hr : Reads h payload .destroy := .destroy (field_of_extractLsb op) (field_of_extractLsb zero) empty
    exact hr.decode_eq

/-! The opcode rows: `match` is the header of the command with every length field 0 -/

theorem opcodeRow_constructInstr (mode : Mode) (key iv ctr sector : Bytes) :
    opcodeRow (constructInstr mode key iv ctr sector) = some (headerK mode 0 0 0 0, 0xFE000000) := by
  cases mode <;> rfl

theorem opcodeRow_dataInstr (dir : Dir) (last : Bool) (data : Bytes) :
    opcodeRow (dataInstr dir last data) = some (headerD dir last 0, 0xFF000000) := by
  cases dir <;> cases last <;> rfl

theorem rowK_matches_iff (mode : Mode) (h : Word) :
    h &&& 0xFE000000#32 = headerK mode 0 0 0 0 ↔ field 31 28 h = 1 ∧ field 27 25 h = mode.number := by
  have hlt := h.isLt
  have hmode := mode_number_lt mode
  rw [← BitVec.toNat_inj, mask25_toNat, headerK_toNat mode (by simp) (by simp) (by simp) (by simp)]
  simp only [field]
  omega

theorem rowD_matches_iff (dir : Dir) (last : Bool) (h : Word) :
    h &&& 0xFF000000#32 = headerD dir last 0 ↔
      field 31 28 h = dirOp dir ∧ field 27 27 h = last.toNat ∧ field 26 24 h = 0 := by
  have hlt := h.isLt
  have hlast := Bool.toNat_le last
  have hdir : dirOp dir < 16 := by cases dir <;> decide
  rw [← BitVec.toNat_inj, mask24_toNat, headerD_toNat dir last (by simp)]
  simp only [field]
  omega

theorem rowZ_matches_iff {op : Nat} (hop : op < 16) (h : Word) :
    h &&& 0xFFFFFFFF#32 = headerZ op ↔ field 31 28 h = op ∧ field 27 0 h = 0 := by
  have hlt := h.isLt
  rw [← BitVec.toNat_inj, mask_all]
  simp only [headerZ, field, BitVec.toNat_ofNat]
  omega

/-- The command whose fields a packet has lies in a row that the header matches. -/
theorem Reads.row_matches {h : Word} {payload : Bytes} {i : Instr} (hr : Reads h payload i) :
    ∃ row, opcodeRow i = some row ∧ h &&& row.2 = row.1 := by
  cases hr with
  | construct op number => exact ⟨_, opcodeRow_constructInstr _ _ _ _ _, (rowK_matches_iff _ h).mpr ⟨op, number⟩⟩
  | data op flag zero => exact ⟨_, opcodeRow_dataInstr _ _ _, (rowD_matches_iff _ _ h).mpr ⟨op, flag, zero⟩⟩
  | restart op zero => exact ⟨_, rfl, (rowZ_matches_iff (op := 4) (by decide) h).mpr ⟨op, zero⟩⟩
  | destroy op zero => exact ⟨_, rfl, (rowZ_matches_iff (op := 5) (by decide) h).mpr ⟨op, zero⟩⟩

/-- A header that a row matches, with a payload of the declared length, has the fields of a command of that row. -/
theorem reads_of_row_matches {h : Word} {payload : Bytes} {i : Instr} {row : Word × Word}
    (hrow : opcodeRow i = some row) (hm : h &&& row.2 = row.1) (hl : payload.length = declaredLength h) :
    ∃ j, Reads h payload j ∧ opcodeRow j = some row := by
  rcases instr_cases i with ⟨mode, key, iv, ctr, sector, rfl⟩ | ⟨dir, last, data, rfl⟩ | rfl | rfl | ⟨n, rfl⟩
  · rw [opcodeRow_constructInstr] at hrow
    cases hrow
    obtain ⟨op, number⟩ := (rowK_matches_iff mode h).mp hm
    simp only [declaredLength, op] at hl
    obtain ⟨key', iv', ctr', sector', cut, klen, ivlen, clen, slen⟩ := exists_operands hl
    exact ⟨_, .construct op number klen ivlen clen slen cut, opcodeRow_constructInstr mode key' iv' ctr' sector'⟩
  · rw [opcodeRow_dataInstr] at hrow
    cases hrow
    obtain ⟨op, flag, zero⟩ := (rowD_matches_iff dir last h).mp hm
    have dlen : payload.length = field 23 0 h := by
      cases dir <;> simpa only [declaredLength, op, dirOp] using hl
    exact ⟨_, .data op flag zero dlen, opcodeRow_dataInstr dir last payload⟩
  · cases hrow
    obtain ⟨op, zero⟩ := (rowZ_matches_iff (op := 4) (by decide) h).mp hm
    simp only [declaredLength, op] at hl
    exact ⟨_, .restart op zero (eq_nil_of_length_zero hl), rfl⟩
  · cases hrow
    obtain ⟨op, zero⟩ := (rowZ_matches_iff (op := 5) (by decide) h).mp hm
    simp only [declaredLength, op] at hl
    exact ⟨_, .destroy op zero (eq_nil_of_length_zero hl), rfl⟩
  · cases hrow

/-- Settles O5: a row's `match` and `mask` say of the header what its format says of the fields. -/
theorem opcodeRowsSelectTheirCommands : Obligations.OpcodeRowsSelectTheirCommands := by
  intro h payload i
  refine ⟨fun hd => (reads_of_decode hd).row_matches, fun row hrow hm hl => ?_⟩
  obtain ⟨j, hr, hj⟩ := reads_of_row_matches hrow hm hl
  exact ⟨j, hr.decode_eq, hj⟩

end Sys2Proof.Machine
end

section
/-! Proofs: what a response tells of the output (`30_encoding.md` R61). -/

namespace Sys2Proof.Machine

/-- How many output bytes a command may have at most: a data command's own, and what the carry buffer can hold
(`30_encoding.md` R61, `10_state.md` R27). -/
def outputLimit (bs : Nat) : Instr → Nat
  | .enc data | .encLast data | .dec data | .decLast data => data.length + (2 * bs - 1)
  | _ => 0

@[simp] theorem outputLimit_dataInstr (bs : Nat) (dir : Dir) (last : Bool) (data : Bytes) :
    outputLimit bs (dataInstr dir last data) = data.length + (2 * bs - 1) := by
  cases dir <;> cases last <;> rfl

@[simp] theorem outputLimit_constructInstr (bs : Nat) (mode : Mode) (key iv ctr sector : Bytes) :
    outputLimit bs (constructInstr mode key iv ctr sector) = 0 := by
  cases mode <;> rfl

theorem outputLimit_eq_zero (bs : Nat) {i : Instr} (hi : ∀ dir last data, i ≠ dataInstr dir last data) :
    outputLimit bs i = 0 := by
  rcases instr_cases i with ⟨mode, key, iv, ctr, sector, rfl⟩ | ⟨dir, last, data, rfl⟩ | rfl | rfl | ⟨n, rfl⟩
  · exact outputLimit_constructInstr bs mode key iv ctr sector
  · exact absurd rfl (hi dir last data)
  · rfl
  · rfl
  · rfl

/-- The length of an output fits `RW1`. -/
theorem outputLimit_lt {bs : Nat} (hbs : bs ≤ 63) {i : Instr} (hi : WellFormed i = true) :
    outputLimit bs i < 2 ^ 32 := by
  by_cases hdata : ∃ dir last data, i = dataInstr dir last data
  · obtain ⟨dir, last, data, rfl⟩ := hdata
    simp only [wellFormed_dataInstr, dataFits, decide_eq_true_eq] at hi
    rw [outputLimit_dataInstr]
    omega
  · rw [outputLimit_eq_zero bs fun dir last data h => hdata ⟨dir, last, data, h⟩]
    decide

theorem State.Inv.carry_lt_two_blocks {s : State} (h : s.Inv) : s.carry.length < 2 * s.bs := by
  by_cases hm : s.mode = .xts
  · exact h.carry_xts hm
  · have := h.carry_lt hm
    omega

/-- No output is longer than the bytes that waited and the bytes that came. -/
theorem State.Inv.length_streamOut_le {s : State} (h : s.Inv) (ready : s.phase = .ready) (dir : Dir) (last : Bool)
    (data : Bytes) (long : ¬ (s.mode = .xts ∧ last = true ∧ s.pos + data.length < s.bs)) :
    (s.streamOut dir last data).length ≤ s.carry.length + data.length := by
  rw [h.length_streamOut ready dir last data long]
  split
  · exact readyBlocks_mul_le _ _ _
  · split
    · exact Nat.div_mul_le_self _ _
    · exact Nat.le_refl _

/-- The answer is one response with the output `out`, which an error does not have (`30_encoding.md` R61). -/
def Answer.Carries (a : Answer) (out : Bytes) : Prop :=
  a = okAnswer out ∨ out = [] ∧ ∃ e : Error, a = errorAnswer e.code

/-- A packet command gives one response, whose output is within the limit. -/
theorem Executes.response {s t : State} {i : Instr} (ht : Executes s i t) (h : s.Inv) (hn : ∀ n, i ≠ .sr n) :
    ∃ a out, t.outbox = s.outbox ++ [a] ∧ a.Carries out ∧ out.length ≤ outputLimit s.bs i := by
  cases ht with
  | error _ e => exact ⟨_, [], rfl, .inr ⟨rfl, e, rfl⟩, Nat.zero_le _⟩
  | construct | restart | destroy => exact ⟨_, [], rfl, .inl rfl, Nat.zero_le _⟩
  | @data dir last data ready long =>
    rw [dataEffect_eq dir last data s h.admissible.1]
    refine ⟨_, s.streamOut dir last data, ?_, .inl rfl, ?_⟩
    · cases last <;> rfl
    · have hout := h.length_streamOut_le ready dir last data long
      have hcarry := h.carry_lt_two_blocks
      rw [outputLimit_dataInstr]
      omega
  | status n => exact absurd rfl (hn n)

/-- The words `RW0` and `RW1` of an answer that carries `out` (`30_encoding.md` R61). -/
theorem Answer.Carries.words {a : Answer} {out : Bytes} (ha : a.Carries out) (hlen : out.length < 2 ^ 32) :
    ∃ rw0 rw1 : Word, a = .response rw0 rw1 out ∧ rw0.extractLsb 31 8 = 0#24 ∧ rw1.toNat = out.length ∧
      (rw0 ≠ 0 → out = []) := by
  rcases ha with rfl | ⟨rfl, e, rfl⟩
  · exact ⟨_, _, rfl, rfl, (BitVec.toNat_ofNat _ 32).trans (Nat.mod_eq_of_lt hlen), fun h => absurd rfl h⟩
  · exact ⟨_, _, rfl, by cases e <;> rfl, rfl, fun _ => rfl⟩

theorem exec_completes (i : Instr) (s : State) : ∃ t, exec i s = .next t := by
  rcases exec_answer i s with ⟨t, -, ht, -⟩ | ⟨e, ht⟩ | ⟨n, -, ht⟩ <;> exact ⟨_, ht⟩

/-- Settles O48: the one response carries an output within the limit of its command, which `RW1` can hold. -/
theorem responseStatesTheOutputLength : Obligations.ResponseStatesTheOutputLength := by
  intro i s h hi hn
  obtain ⟨t, ht⟩ := exec_completes i s
  obtain ⟨a, out, hout, ha, hlen⟩ := (executes_of_exec ht).response h hn
  obtain ⟨rw0, rw1, rfl, hupper, hlength, herror⟩ := ha.words (hlen.trans_lt (outputLimit_lt h.admissible.2.1 hi))
  refine ⟨t, rw0, rw1, out, ht, hout, hupper, hlength, herror, fun dir last data hdata => ?_, fun hother => ?_⟩
  · rwa [hdata, outputLimit_dataInstr] at hlen
  · rw [outputLimit_eq_zero s.bs hother] at hlen
    exact eq_nil_of_length_zero (Nat.le_zero.mp hlen)

end Sys2Proof.Machine
end

section
/-! Proofs: the contract of the block primitive (`40_block_primitive.md` R80 to R82). -/

namespace Sys2Proof.Machine

/-- Settles O24: both attached pairs, the uninterpreted one and the toy, keep the contract under any key, accepted or
not; that `b` is a block is what the two inverse laws need, for `E` and `D` first fit their operand to a block. -/
theorem primitiveIsAKeyedPermutation : Obligations.PrimitiveIsAKeyedPermutation := by
  intro p k b _accepted block
  exact ⟨length_E p k b, length_D p k b, D_E p k block, E_D p k block⟩

end Sys2Proof.Machine
end

section
/-! Proofs: an accepted CONSTRUCT in IDLE, the whole next state (`41_engine_commands.md` R91, R92). -/

namespace Sys2Proof.Machine

theorem orZeros_of_length {n : Nat} {operand : Bytes} (h : operand.length = n) : orZeros n operand = operand := if_pos h

/-- The checks of CONSTRUCT find nothing when all of them pass. -/
theorem constructError_of_accepted {p : Primitive} {mode : Mode} {key iv ctr sector : Bytes}
    (h : ConstructAccepted p mode key iv ctr sector) : constructError p mode key iv ctr sector = none := by
  obtain ⟨hkey, hoperands, hiv, hctr⟩ := h
  have hcases := constructError_eq p mode key iv ctr sector
  simp only [hkey, hoperands, hiv, hctr, not_true_eq_false, false_and, and_false, false_or] at hcases
  exact hcases.2

/-- An accepted CONSTRUCT loads its operands and seeds (`41_engine_commands.md` R91). -/
theorem exec_construct_of_accepted {mode : Mode} {key iv ctr sector : Bytes} {s : State} (idle : s.phase = .idle)
    (accepted : ConstructAccepted s.prim mode key iv ctr sector) :
    exec (constructInstr mode key iv ctr sector) s =
      .next ((constructLoad mode key iv ctr sector s).seed.respond []) := by
  rw [exec_constructInstr, construct, if_pos idle, constructError_of_accepted accepted]

/-- Outside XTS the one key register is the key, and an absent operand leaves zeros in its seed. -/
theorem exec_construct_starts {mode : Mode} {key iv ctr seedIv seedCtr : Bytes} {s : State} (hm : mode ≠ .xts)
    (idle : s.phase = .idle) (accepted : ConstructAccepted s.prim mode key iv ctr [])
    (hiv : orZeros s.bs iv = seedIv) (hctr : orZeros s.bs ctr = seedCtr) :
    exec (constructInstr mode key iv ctr []) s = .next { s with
      phase := .ready, mode := mode, k1 := key, k2 := [],
      prev := seedIv, ctr := seedCtr, tweak := zeros 16,
      seedIv := seedIv, seedCtr := seedCtr, seedSector := zeros 16,
      carry := [], pos := 0, blkIdx := 0, outbox := s.outbox ++ [okAnswer []] } := by
  rw [exec_construct_of_accepted idle accepted]
  simp only [respond_eq, State.seed, constructLoad, if_neg hm, hiv, hctr]

/-- Settles O11: ECB takes the key alone, so both seeds are zeros. -/
theorem constructEcbStartsAnInstance : Obligations.ConstructEcbStartsAnInstance := fun _ s idle hkey =>
  exec_construct_starts (mode := .ecb) (by simp) idle ⟨hkey, by simp [OperandUnsupported], id, id⟩
    (orZeros_nil s.bs) (orZeros_nil s.bs)

/-- Settles O12: the three modes take the same operands and differ in the mode register only. -/
theorem constructCbcCfbOfbStartAnInstance : Obligations.ConstructCbcCfbOfbStartAnInstance := by
  intro key iv s idle hkey hiv
  have hseed := orZeros_of_length hiv
  have hzeros := orZeros_nil s.bs
  refine ⟨exec_construct_starts (mode := .cbc) (by simp) idle ⟨hkey, ?_, not_not.mpr hiv, id⟩ hseed hzeros,
    exec_construct_starts (mode := .cfb) (by simp) idle ⟨hkey, ?_, not_not.mpr hiv, id⟩ hseed hzeros,
    exec_construct_starts (mode := .ofb) (by simp) idle ⟨hkey, ?_, not_not.mpr hiv, id⟩ hseed hzeros⟩ <;>
  simp [OperandUnsupported]

/-- Settles O13: the operand is the seed of the counter and its first value. -/
theorem constructCtrStartsAnInstance : Obligations.ConstructCtrStartsAnInstance := fun _ _ s idle hkey hctr =>
  exec_construct_starts (mode := .ctr) (by simp) idle ⟨hkey, by simp [OperandUnsupported], id, not_not.mpr hctr⟩
    (orZeros_nil s.bs) (orZeros_of_length hctr)

/-- Two halves of one length are found again at half the length of the key (`46_xts.md` R148). -/
theorem take_drop_halves {a b : Bytes} (h : b.length = a.length) :
    (a ++ b).take ((a ++ b).length / 2) = a ∧ (a ++ b).drop ((a ++ b).length / 2) = b := by
  have hhalf : (a ++ b).length / 2 = a.length := by rw [List.length_append]; omega
  rw [hhalf]
  exact ⟨List.take_left, List.drop_left⟩

/-- XTS: the halves of the key, the sector block or zeros, and its encryption in the tweak (`46_xts.md` R140, R141,
R148). -/
theorem exec_constructXts_starts {dataKey tweakKey sector : Bytes} {s : State} (idle : s.phase = .idle)
    (h16 : s.bs = 16) (hhalves : tweakKey.length = dataKey.length) (hkey : s.prim.accepts dataKey.length = true)
    (hsector : sector = [] ∨ sector.length = 16) :
    exec (constructInstr .xts (dataKey ++ tweakKey) [] [] sector) s = .next { s with
      phase := .ready, mode := .xts, k1 := dataKey, k2 := tweakKey,
      prev := zeros 16, ctr := zeros 16, tweak := E s.prim tweakKey (orZeros 16 sector),
      seedIv := zeros 16, seedCtr := zeros 16, seedSector := orZeros 16 sector,
      carry := [], pos := 0, blkIdx := 0, outbox := s.outbox ++ [okAnswer []] } := by
  obtain ⟨htake, hdrop⟩ := take_drop_halves hhalves
  have hlen : (dataKey ++ tweakKey).length = 2 * dataKey.length := by rw [List.length_append]; omega
  have accepted : ConstructAccepted s.prim .xts (dataKey ++ tweakKey) [] [] sector := by
    refine ⟨⟨by omega, ?_⟩, ?_, id, id⟩
    · rw [hlen, Nat.mul_div_cancel_left _ Nat.two_pos, hkey]
    · simp only [OperandUnsupported]
      tauto
  rw [exec_construct_of_accepted idle accepted]
  simp only [respond_eq, State.seed, constructLoad, if_true, htake, hdrop, orZeros_nil, h16]

/-- Settles O14: an absent sector block is 16 zeros, and a present one is itself. -/
theorem constructXtsStartsAnInstance : Obligations.ConstructXtsStartsAnInstance := by
  intro dataKey tweakKey sector s idle h16 hhalves hkey hsector sectorBlock
  have hblock : orZeros 16 sector = sectorBlock := by
    rcases hsector with rfl | hlen
    · exact orZeros_nil 16
    · have hne : sector ≠ [] := List.ne_nil_of_length_eq_add_one hlen
      exact (orZeros_of_length hlen).trans (if_neg hne).symm
  rw [← hblock]
  exact exec_constructXts_starts idle h16 hhalves hkey hsector

end Sys2Proof.Machine
end

section
/-! Proofs: the transitions of `PHASE` (`41_engine_commands.md` R97). -/

namespace Sys2Proof.Machine

/-- CONSTRUCT in IDLE with a check that fails raises one of the four errors of CONSTRUCT (`41_engine_commands.md`
R91). -/
theorem construct_of_not_accepted {mode : Mode} {key iv ctr sector : Bytes} {s : State} (idle : s.phase = .idle)
    (rejected : ¬ ConstructAccepted s.prim mode key iv ctr sector) :
    ∃ code ∈ [1, 2, 3, 5], construct mode key iv ctr sector s = s.errored code := by
  rw [construct, if_pos idle]
  rcases constructError_eq s.prim mode key iv ctr sector with
    ⟨-, he⟩ | ⟨-, -, he⟩ | ⟨-, -, -, -, he⟩ | ⟨-, -, -, -, he⟩ | ⟨accepted, -⟩
  · exact ⟨1, by simp, by rw [he]; rfl⟩
  · exact ⟨5, by simp, by rw [he]; rfl⟩
  · exact ⟨2, by simp, by rw [he]; rfl⟩
  · exact ⟨3, by simp, by rw [he]; rfl⟩
  · exact absurd accepted rejected

theorem construct_of_started (mode : Mode) (key iv ctr sector : Bytes) {s : State} (started : s.phase ≠ .idle) :
    construct mode key iv ctr sector s = s.errored 7 := if_neg started

/-- An accepted data command ends the message with LAST and leaves the phase without (`41_engine_commands.md` R93). -/
theorem dataCommand_phase_of_long (dir : Dir) {last : Bool} {data : Bytes} {s : State} (ready : s.phase = .ready)
    (long : ¬ (s.mode = .xts ∧ last = true ∧ s.pos + data.length < s.bs)) :
    (dataCommand dir last data s).phase = if last then .done else .ready := by
  obtain ⟨c, b, n, hw⟩ := dataEffect_writes dir last data s
  simp only [dataCommand, ready, if_true, if_neg long, hw, State.respond_phase]

/-- The fields of a packet that decodes are legal (`30_encoding.md` R70). -/
theorem Reads.not_illegal {h : Word} {payload : Bytes} {i : Instr} (hr : Reads h payload i) :
    ¬ IllegalPacket ⟨h, payload⟩ := by
  cases hr with
  | @construct mode key iv ctr sector op number klen ivlen clen slen cut =>
    have hm := mode_number_lt mode
    have hl := congrArg List.length cut
    simp only [List.length_append] at hl
    simp only [IllegalPacket, declaredLength, op]
    omega
  | @data dir last op flag zero dlen =>
    cases dir <;> simp only [dirOp] at op <;> simp [IllegalPacket, declaredLength, op, zero, dlen]
  | restart op zero empty => simp [IllegalPacket, declaredLength, op, zero, empty]
  | destroy op zero empty => simp [IllegalPacket, declaredLength, op, zero, empty]

/-- An illegal packet is taken from the inbox and answered with `IllegalCommand` (`60_exceptions.md` R168). -/
theorem step_of_illegal {s : State} {p : Packet} {rest : List HostEvent} (hin : s.inbox = .request (.packet p) :: rest)
    (illegal : IllegalPacket p) : step s = .next ({ s with inbox := rest }.errored 6) := by
  cases hd : decode (.packet p) with
  | ok i => exact absurd illegal (reads_of_decode hd).not_illegal
  | error e =>
    simp only [step, hin, hd]
    rfl

theorem step_of_hardwareReset {s : State} {rest : List HostEvent} (hin : s.inbox = .hardwareReset :: rest) :
    step s = .next { s with inbox := rest }.hardwareReset := by
  simp only [step, hin]

/-- Settles O17: a row of the table with an error leaves the errored state, whose phase is the one before; the other
rows are an accepted CONSTRUCT, a data command with LAST or without, `Seed()` and the reset values. -/
theorem phaseTransitions : Obligations.PhaseTransitions := by
  intro s t
  refine ⟨fun mode key iv ctr sector ht => ?construct, fun dir last data ht => ?data, fun ht => ?restart,
    fun ht => ?destroy, fun n ht => ?status, fun p rest hin illegal ht => ?illegal, fun rest hin ht => ?reset⟩
  case construct =>
    refine ⟨fun idle accepted => ?_, fun idle rejected => ?_, fun started => ?_⟩
    · cases (exec_construct_of_accepted idle accepted).symm.trans ht
      rfl
    · obtain ⟨code, hcode, he⟩ := construct_of_not_accepted idle rejected
      rw [exec_constructInstr, he] at ht
      cases ht
      exact ⟨idle, code, hcode, rfl⟩
    · rw [exec_constructInstr, construct_of_started mode key iv ctr sector started] at ht
      cases ht
      exact ⟨rfl, rfl⟩
  case data =>
    rw [exec_dataInstr] at ht
    cases ht
    refine ⟨fun ready hlast => ?_, fun ready hlast long => ?_, fun ready hlast hm hshort => ?_, fun hphase => ?_⟩
    · rw [dataCommand_phase_of_long dir ready (by simp [hlast]), hlast]
      rfl
    · rw [dataCommand_phase_of_long dir ready (fun short => long ⟨short.1, short.2.2⟩), hlast]
      rfl
    · rw [dataCommand_short dir last data s ready ⟨hm, hlast, hshort⟩]
      exact ⟨ready, rfl⟩
    · rw [dataCommand_phase dir last data s hphase]
      exact ⟨rfl, rfl⟩
  case restart =>
    cases ht
    refine ⟨fun idle => ?_, fun started => ?_⟩
    · rw [if_pos idle]
      exact ⟨idle, rfl⟩
    · rw [if_neg started]
      rfl
  case destroy =>
    cases ht
    rfl
  case status =>
    cases ht
    rfl
  case illegal =>
    cases (step_of_illegal hin illegal).symm.trans ht
    exact ⟨rfl, rfl⟩
  case reset =>
    cases (step_of_hardwareReset hin).symm.trans ht
    rfl

end Sys2Proof.Machine
end

section
/-! Proofs: an empty data command, and the block that XTS holds back (`41_engine_commands.md` R95, R104). -/

namespace Sys2Proof.Machine

/-- Between commands no block is ready: a complete one has been processed, or is held back in XTS (`10_state.md`
R27). -/
theorem State.Inv.no_readyBlocks {s : State} (h : s.Inv) : readyBlocks s.mode s.bs s.carry.length = 0 := by
  unfold readyBlocks
  split
  · rename_i hm
    have := Nat.div_lt_of_lt_mul (Nat.mul_comm 2 s.bs ▸ h.carry_xts hm)
    omega
  · rename_i hm
    exact Nat.div_eq_of_lt (h.carry_lt hm)

theorem State.Inv.streamed_nil {s : State} (h : s.Inv) (dir : Dir) : s.streamed dir false [] = s := by
  simp only [State.streamed, List.append_nil, h.no_readyBlocks, Nat.zero_mul, List.drop_zero]
  rfl

theorem State.Inv.streamOut_nil {s : State} (h : s.Inv) (dir : Dir) : s.streamOut dir false [] = [] := by
  simp only [State.streamOut, List.append_nil, h.no_readyBlocks]
  rfl

/-- A data command without LAST in READY: it cannot end a short XTS sector (`41_engine_commands.md` R93). -/
theorem State.Inv.exec_data {s : State} (h : s.Inv) (ready : s.phase = .ready) (dir : Dir) (data : Bytes) :
    exec (dataInstr dir false data) s =
      .next ((s.streamed dir false data).respond (s.streamOut dir false data)) := by
  rw [exec_dataInstr, dataCommand_ready dir false data s h.admissible.1 ready (by simp)]

/-- Settles O44: with no new byte no block is ready, so nothing is written and nothing given out. -/
theorem emptyDataCommandChangesNothing : Obligations.EmptyDataCommandChangesNothing := by
  intro dir s h ready
  rw [h.exec_data ready, h.streamed_nil, h.streamOut_nil, respond_eq]

/-- The bytes of the answers given out since the outbox was that of `s`. -/
theorem outputSince_of_outbox {s t : State} {answers : List Answer} (h : t.outbox = s.outbox ++ answers) :
    outputSince s.outbox t = answers.flatMap Answer.out := by
  rw [outputSince, h, List.drop_left]

/-- In READY the block count follows from the position, in XTS with one block held back (`10_state.md` R29,
`41_engine_commands.md` R95). -/
theorem State.Inv.blkIdx_of_held {s : State} (h : s.Inv) (ready : s.phase = .ready) (hm : s.mode = .xts)
    (held : s.bs ≤ s.carry.length) : s.blkIdx = s.pos / s.bs - 1 := by
  have hlt := h.carry_xts hm
  have hdiv : s.pos / s.bs = s.blkIdx + 1 := by
    apply Nat.div_eq_of_lt_le <;> rw [h.position ready] <;> simp only [Nat.add_mul, Nat.one_mul] <;> omega
  rw [hdiv, Nat.add_sub_cancel]

/-- Settles O46: the bounds and the count are the invariant of the next state; the output is as long as the blocks by
which `BLKIDX` grew. -/
theorem xtsHoldsBackTheLastBlock : Obligations.XtsHoldsBackTheLastBlock := by
  intro dir data s h ready hm hpos
  have hnext : ((s.streamed dir false data).respond (s.streamOut dir false data)).Inv :=
    (h.streamed ready dir false data).respond _
  have held := hnext.carry_held hm ready hpos
  refine ⟨_, h.exec_data ready dir data, held, hnext.carry_xts hm, hnext.blkIdx_of_held ready hm held, ?_⟩
  have hgrown : (s.streamed dir false data).blkIdx - s.blkIdx =
      readyBlocks s.mode s.bs (s.carry.length + data.length) := by
    rw [← List.length_append]
    exact Nat.add_sub_cancel_left _ _
  rw [State.respond_blkIdx, hgrown, outputSince_of_outbox (answers := [okAnswer (s.streamOut dir false data)]) rfl]
  simp only [List.flatMap_singleton, okAnswer, Answer.out]
  rw [h.length_streamOut ready dir false data (by simp), if_pos rfl, Nat.mul_comm]

end Sys2Proof.Machine
end

section
/-! Proofs: RESTART (`41_engine_commands.md` R100). -/

namespace Sys2Proof.Machine

/-- The commands go on in the state that the first one leaves. -/
theorem issue_cons {i : Instr} {rest : List Instr} {s t : State} (h : exec i s = .next t) :
    issue (i :: rest) s = issue rest t := by
  simp only [issue, h]

/-- The mode, keys and seeds that the engine holds are operands that CONSTRUCT accepts (`41_engine_commands.md` R91). -/
theorem State.Loaded.accepted {s : State} (h : s.Loaded) :
    ConstructAccepted s.prim s.mode (s.k1 ++ s.k2) (if takesIv s.mode then s.seedIv else [])
      (if s.mode = .ctr then s.seedCtr else []) (if s.mode = .xts then s.seedSector else []) := by
  have hiv := h.len_seedIv
  have hctr := h.len_seedCtr
  have hsector := h.len_seedSector
  have hkey := h.key_accepted
  have hother := h.key_other
  have hxts := h.key_xts
  unfold ConstructAccepted
  cases hm : s.mode with
  | xts =>
    obtain ⟨hk2, h16⟩ := hxts hm
    have hlen : (s.k1 ++ s.k2).length = 2 * s.k1.length := by rw [List.length_append]; omega
    simp [KeyLengthAccepted, OperandUnsupported, IvLengthWrong, CounterLengthWrong, takesIv, hsector, h16, hlen, hkey]
  | ecb | cbc | cfb | ofb | ctr =>
    have hk2 := hother (by simp [hm])
    simp [KeyLengthAccepted, OperandUnsupported, IvLengthWrong, CounterLengthWrong, takesIv, hk2, hkey, hiv, hctr]

/-- The mode, keys and seeds that the engine holds, given to CONSTRUCT over the same primitive, are loaded again: an
operand that the mode does not take is absent, and its seed holds zeros (`10_state.md` R26, R37). -/
theorem State.Loaded.constructLoad_eq {s u : State} (h : s.Loaded) (hprim : u.prim = s.prim) :
    constructLoad s.mode (s.k1 ++ s.k2) (if takesIv s.mode then s.seedIv else [])
        (if s.mode = .ctr then s.seedCtr else []) (if s.mode = .xts then s.seedSector else []) u =
      { u with
        mode := s.mode, k1 := s.k1, k2 := s.k2
        seedSector := s.seedSector, seedIv := s.seedIv, seedCtr := s.seedCtr } := by
  have hbs : u.bs = s.bs := congrArg Primitive.blockSize hprim
  have hiv : orZeros s.bs (if takesIv s.mode then s.seedIv else []) = s.seedIv := by
    split
    · exact orZeros_of_length h.len_seedIv
    · rename_i hm
      exact (orZeros_nil _).trans (h.unused_iv (Bool.not_eq_true _ ▸ hm)).symm
  have hctr : orZeros s.bs (if s.mode = .ctr then s.seedCtr else []) = s.seedCtr := by
    split
    · exact orZeros_of_length h.len_seedCtr
    · rename_i hm
      exact (orZeros_nil _).trans (h.unused_ctr hm).symm
  by_cases hm : s.mode = .xts
  · obtain ⟨htake, hdrop⟩ := take_drop_halves (h.key_xts hm).1
    simp only [constructLoad, hbs, hiv, hctr, if_pos hm, htake, hdrop, orZeros_of_length h.len_seedSector]
  · simp only [constructLoad, hbs, hiv, hctr, if_neg hm, h.key_other hm, List.append_nil, h.unused_sector hm]

/-- Settles O47: RESTART seeds from the registers that CONSTRUCT loaded; after DESTROY the same CONSTRUCT is accepted
and loads them again. -/
theorem restartReturnsToTheStateAfterConstruct : Obligations.RestartReturnsToTheStateAfterConstruct := by
  intro s t
  have hrestart : exec .restart s = .next (if s.phase = .idle then s.errored 7 else t) := rfl
  refine ⟨fun idle => ?_, fun started => ?_, fun started h => ?_⟩
  · rw [hrestart, if_pos idle]
  · rw [hrestart, if_neg started]
  · have hdestroy : exec .destroy s = .next (s.cleared.respond []) := rfl
    have loaded := h.loaded started
    have hconstruct := exec_construct_of_accepted (s := s.cleared.respond []) rfl loaded.accepted
    rw [loaded.constructLoad_eq (u := s.cleared.respond []) rfl] at hconstruct
    rw [issue_cons hdestroy, issue_cons hconstruct]
    have hout : s.outbox ++ [okAnswer []] ++ [okAnswer []] = s.outbox ++ [okAnswer [], okAnswer []] :=
      List.append_assoc _ _ _
    rw [← hout]
    rfl

end Sys2Proof.Machine
end

section
/-! Proofs: a message in pieces is the one data command (`41_engine_commands.md` R102, R103). -/

namespace Sys2Proof.Machine

/-- The state with more answers given out. -/
def State.answered (s : State) (answers : List Answer) : State := { s with outbox := s.outbox ++ answers }

theorem State.answered_answered (s : State) (a b : List Answer) : (s.answered a).answered b = s.answered (a ++ b) := by
  simp only [State.answered, List.append_assoc]

/-- Streaming does not look at what has been given out. -/
theorem streamed_answered (dir : Dir) (last : Bool) (data : Bytes) (s : State) (answers : List Answer) :
    (s.answered answers).streamed dir last data = (s.streamed dir last data).answered answers := by
  cases last <;> rfl

theorem streamOut_answered (dir : Dir) (last : Bool) (data : Bytes) (s : State) (answers : List Answer) :
    (s.answered answers).streamOut dir last data = s.streamOut dir last data := rfl

theorem flatMap_out_okAnswer (outs : List Bytes) : (outs.map okAnswer).flatMap Answer.out = outs.flatten := by
  rw [List.flatMap_map]
  exact List.flatMap_id

theorem issue_append {a b : List Instr} {s t : State} (h : issue a s = .next t) : issue (a ++ b) s = issue b t := by
  induction a generalizing s with
  | nil =>
    cases h
    rfl
  | cons i a ih =>
    obtain ⟨u, hu⟩ := exec_completes i s
    rw [issue_cons hu] at h
    rw [List.cons_append, issue_cons hu]
    exact ih h

/-- The pieces before LAST are all accepted, and leave the registers and give out the bytes of one command with all
their data. -/
theorem State.Inv.issue_pieces {s : State} (h : s.Inv) (ready : s.phase = .ready) (dir : Dir) (pieces : List Bytes) :
    ∃ outs : List Bytes, outs.length = pieces.length ∧ outs.flatten = s.streamOut dir false pieces.flatten ∧
      issue (pieces.map (dataInstr dir false)) s =
        .next ((s.streamed dir false pieces.flatten).answered (outs.map okAnswer)) := by
  induction pieces generalizing s with
  | nil =>
    refine ⟨[], rfl, (h.streamOut_nil dir).symm, ?_⟩
    simp only [List.flatten_nil, h.streamed_nil, State.answered, List.map_nil, List.append_nil]
    rfl
  | cons a pieces ih =>
    obtain ⟨outs, hlen, hout, hissue⟩ := ih ((h.streamed ready dir false a).respond (s.streamOut dir false a)) ready
    obtain ⟨hstate, hbytes⟩ := streamed_append dir false a pieces.flatten s h.admissible.1
    have hresponse : (s.streamed dir false a).respond (s.streamOut dir false a) =
        (s.streamed dir false a).answered [okAnswer (s.streamOut dir false a)] := rfl
    refine ⟨s.streamOut dir false a :: outs, by simp [hlen], ?_, ?_⟩
    · rw [List.flatten_cons, List.flatten_cons, hout, hresponse, streamOut_answered, hbytes]
    · rw [List.map_cons, issue_cons (h.exec_data ready dir a), hissue, hresponse, streamed_answered, hstate,
        State.answered_answered]
      rfl

/-- A message that can end here, in pieces: the registers and the bytes of the one command with all its data
(`41_engine_commands.md` R102). -/
theorem State.Inv.issue_message {s : State} (h : s.Inv) (ready : s.phase = .ready) (dir : Dir) (pieces : List Bytes)
    (final : Bytes) (long : ¬ (s.mode = .xts ∧ s.pos + (pieces.flatten ++ final).length < s.bs)) :
    ∃ (outs : List Bytes) (lastOut : Bytes), outs.length = pieces.length ∧
      (outs ++ [lastOut]).flatten = s.streamOut dir true (pieces.flatten ++ final) ∧
      issue (message dir pieces final) s =
        .next ((s.streamed dir true (pieces.flatten ++ final)).answered ((outs ++ [lastOut]).map okAnswer)) := by
  obtain ⟨outs, hlen, hout, hissue⟩ := h.issue_pieces ready dir pieces
  obtain ⟨hstate, hbytes⟩ := streamed_append dir true pieces.flatten final s h.admissible.1
  rw [List.length_append, ← Nat.add_assoc] at long
  have hfinal := dataCommand_ready dir true final ((s.streamed dir false pieces.flatten).answered (outs.map okAnswer))
    h.admissible.1 ready fun short => long ⟨short.1, short.2.2⟩
  refine ⟨outs, (s.streamed dir false pieces.flatten).streamOut dir true final, hlen, ?_, ?_⟩
  · rw [List.flatten_append, hout, ← hbytes, List.flatten_singleton]
  · rw [message, issue_append hissue, issue_cons (exec_dataInstr dir true final _), hfinal, streamed_answered, hstate,
      streamOut_answered, List.map_append, ← State.answered_answered]
    rfl

/-- In a sector that stays shorter than a block nothing is given out (`41_engine_commands.md` R95). -/
theorem State.Inv.streamOut_of_short {s : State} (h : s.Inv) (ready : s.phase = .ready) (dir : Dir) {data : Bytes}
    (hm : s.mode = .xts) (short : s.pos + data.length < s.bs) : s.streamOut dir false data = [] := by
  have hbuf : s.carry.length + data.length < s.bs :=
    Nat.lt_of_not_le fun hle => Nat.not_le_of_lt short ((h.xts_buffered ready hm data.length).mpr hle)
  apply eq_nil_of_length_zero
  rw [h.length_streamOut ready dir false data (by simp), if_pos rfl, readyBlocks, if_pos hm, Nat.div_eq_of_lt hbuf,
    Nat.zero_sub, Nat.zero_mul]

/-- A short XTS sector in pieces: the last piece raises the error, and the others give nothing. -/
theorem State.Inv.issue_message_short {s : State} (h : s.Inv) (ready : s.phase = .ready) (dir : Dir)
    (pieces : List Bytes) (final : Bytes) (hm : s.mode = .xts)
    (short : s.pos + (pieces.flatten ++ final).length < s.bs) :
    ∃ outs : List Bytes, outs.length = pieces.length ∧ (∀ out ∈ outs, out = []) ∧
      issue (message dir pieces final) s =
        .next (((s.streamed dir false pieces.flatten).answered (outs.map okAnswer)).raise .insufficientDataForXTS) := by
  obtain ⟨outs, hlen, hout, hissue⟩ := h.issue_pieces ready dir pieces
  rw [List.length_append, ← Nat.add_assoc] at short
  rw [h.streamOut_of_short ready dir hm (by omega)] at hout
  have hfinal := dataCommand_short dir true final ((s.streamed dir false pieces.flatten).answered (outs.map okAnswer))
    ready ⟨hm, rfl, short⟩
  refine ⟨outs, hlen, List.flatten_eq_nil_iff.mp hout, ?_⟩
  rw [message, issue_append hissue, issue_cons (exec_dataInstr dir true final _), hfinal, issue]

/-- Settles O49: a message that can end is streamed the same in pieces; in a short XTS sector the pieces before LAST
give nothing. -/
theorem chunkInvariance : Obligations.ChunkInvariance := by
  intro dir pieces final s h ready
  have hok (out : Bytes) : okAnswer out ≠ errorAnswer 4 := okAnswer_ne_errorAnswer out (by decide) (by decide)
  by_cases short : s.mode = .xts ∧ s.pos + (pieces.flatten ++ final).length < s.bs
  · obtain ⟨hm, hshort⟩ := short
    obtain ⟨outs, hlen, hempty, hissue⟩ := h.issue_message_short ready dir pieces final hm hshort
    refine ⟨_, s.raise .insufficientDataForXTS, outs.map okAnswer, errorAnswer 4, errorAnswer 4, hissue, ?_, rfl,
      by simp [hlen], rfl, .inl rfl, fun hone => absurd hone.symm (hok _), fun _ => ⟨rfl, ?_⟩⟩
    · rw [exec_dataInstr, dataCommand_short dir true _ s ready ⟨hm, rfl, hshort⟩]
    · intro a ha
      obtain ⟨out, hmem, rfl⟩ := List.mem_map.mp ha
      rw [hempty out hmem]
  · obtain ⟨outs, lastOut, hlen, hbytes, hissue⟩ := h.issue_message ready dir pieces final short
    have hone := dataCommand_ready dir true (pieces.flatten ++ final) s h.admissible.1 ready
      fun hs => short ⟨hs.1, hs.2.2⟩
    have hanswers : outs.map okAnswer ++ [okAnswer lastOut] = (outs ++ [lastOut]).map okAnswer := by
      rw [List.map_append, List.map_singleton]
    refine ⟨_, _, outs.map okAnswer, okAnswer lastOut, okAnswer (s.streamOut dir true (pieces.flatten ++ final)),
      hissue, (exec_dataInstr dir true _ s).trans (congrArg _ hone), ?_, by simp [hlen], rfl, .inr rfl,
      fun _ => ⟨?_, ?_, rfl⟩, fun herror => absurd herror (hok _)⟩
    · rw [List.append_assoc, hanswers]
      rfl
    · rw [hanswers]
      intro a ha
      obtain ⟨out, -, rfl⟩ := List.mem_map.mp ha
      rfl
    · rw [hanswers, flatMap_out_okAnswer, hbytes]
      rfl

/-! The total output -/

theorem State.Inv.carry_of_start {s : State} (h : s.Inv) (ready : s.phase = .ready) (start : s.pos = 0) :
    s.carry = [] := by
  have hpos := h.position ready
  exact eq_nil_of_length_zero (by omega)

/-- What the answers carry, put together. -/
theorem outputSince_answered {s t : State} (h : t.outbox = s.outbox) (outs : List Bytes) :
    outputSince s.outbox (t.answered (outs.map okAnswer)) = outs.flatten := by
  rw [outputSince_of_outbox (s := s) (answers := outs.map okAnswer) (by rw [State.answered, h]), flatMap_out_okAnswer]

theorem streamed_outbox (dir : Dir) (last : Bool) (data : Bytes) (s : State) :
    (s.streamed dir last data).outbox = s.outbox := by
  cases last <;> rfl

/-- What waits after a whole message from the start: in ECB and CBC the residue (`41_engine_commands.md` R96). -/
theorem length_carry_streamed_last (dir : Dir) {m : Bytes} {s : State} (hcarry : s.carry = []) :
    (s.mode = .ecb ∨ s.mode = .cbc → (s.streamed dir true m).carry.length = m.length % s.bs) ∧
    (s.mode ≠ .ecb → s.mode ≠ .cbc → (s.streamed dir true m).carry = []) := by
  have hflush : (s.streamed dir true m).carry =
      flushCarry s.mode (m.drop (readyBlocks s.mode s.bs m.length * s.bs)) := by
    have hstreamed : (s.streamed dir true m).carry =
        flushCarry s.mode ((s.carry ++ m).drop (readyBlocks s.mode s.bs (s.carry ++ m).length * s.bs)) := rfl
    rw [hstreamed, hcarry, List.nil_append]
  rw [hflush]
  refine ⟨fun hm => ?_, fun hecb hcbc => flushCarry_eq_nil hecb hcbc _⟩
  have hmod : m.length - m.length / s.bs * s.bs = m.length % s.bs := by
    rw [Nat.mul_comm, Nat.mod_eq_sub]
  rcases hm with hm | hm <;> simp [hm, flushCarry, readyBlocks, hmod]

/-- Settles O50: the pieces give what the one command gives, whose output has a known length. -/
theorem outputLength : Obligations.OutputLength := by
  intro dir pieces final s h ready start
  have hcarry := h.carry_of_start ready start
  constructor
  · obtain ⟨outs, -, hout, hissue⟩ := h.issue_pieces ready dir pieces
    refine ⟨_, hissue, ?_⟩
    rw [outputSince_answered (streamed_outbox dir false _ s), hout, h.length_streamOut ready dir false _ (by simp),
      hcarry, if_pos rfl, List.length_nil, Nat.zero_add, Nat.mul_comm]
    rfl
  · intro n hlong
    have long : ¬ (s.mode = .xts ∧ s.pos + n < s.bs) := fun short => by have := hlong short.1; omega
    obtain ⟨outs, lastOut, -, hout, hissue⟩ := h.issue_message ready dir pieces final long
    obtain ⟨hresidue, hnone⟩ := length_carry_streamed_last dir (m := pieces.flatten ++ final) hcarry
    have hlen := h.length_streamOut ready dir true (pieces.flatten ++ final) fun short => long ⟨short.1, short.2.2⟩
    simp only [hcarry, List.length_nil, Nat.zero_add, reduceCtorEq, if_false] at hlen
    refine ⟨_, hissue, ?_, ?_⟩ <;> rw [outputSince_answered (streamed_outbox dir true _ s), hout, hlen]
    · intro hm
      exact ⟨by rw [if_pos hm, Nat.mul_comm], hresidue hm⟩
    · intro hecb hcbc
      exact ⟨if_neg (by simp [hecb, hcbc]), hnone hecb hcbc⟩

end Sys2Proof.Machine
end

section
/-! Proofs: decryption undoes encryption (`41_engine_commands.md` R105, `40_block_primitive.md` R82). -/

namespace Sys2Proof.Machine

/-! One block, a run of blocks, and the end of the message -/

/-- The block operations of the two directions are inverse to each other, and both leave the same chaining registers:
the feedback is the ciphertext block, or does not depend on the block (`41_engine_commands.md` R98). -/
theorem Chain.Sized.decrypt_block {mode : Mode} {p : Primitive} {c : Chain} (h : c.Sized mode p.blockSize) (k : Bytes)
    {x : Bytes} (hx : x.length = p.blockSize) :
    chainOut .decrypt mode p k (chainOut .encrypt mode p k x c) c = x ∧
    chainNext .decrypt mode p k (chainOut .encrypt mode p k x c) c = chainNext .encrypt mode p k x c := by
  obtain ⟨hprev, -, htweak, h16⟩ := h
  cases mode with
  | ecb => exact ⟨D_E p k hx, rfl⟩
  | cbc =>
    refine ⟨?_, rfl⟩
    simp only [chainOut]
    rw [D_E p k (by simp [hx, hprev]), xorB_cancel (by simp [hx, hprev])]
  | cfb => exact ⟨xorB_cancel_left (by simp [hx]), rfl⟩
  | ofb => exact ⟨xorB_cancel (by simp [hx]), rfl⟩
  | ctr => exact ⟨xorB_cancel (by simp [hx]), rfl⟩
  | xts =>
    have hbs := h16 rfl
    refine ⟨?_, rfl⟩
    simp only [chainOut]
    have hxt : (xorB x c.tweak).length = p.blockSize := by simp [hx, hbs, htweak]
    rw [xorB_cancel (by simp [hbs, htweak]), D_E p k hxt, xorB_cancel (by simp [hx, hbs, htweak])]

/-- A run of ciphertext blocks, whatever follows it. -/
theorem Chain.Sized.decrypt_blocks {mode : Mode} {p : Primitive} (k : Bytes) (n : Nat) {m : Bytes} {c : Chain}
    (h : c.Sized mode p.blockSize) (hm : n * p.blockSize ≤ m.length) (rest : Bytes) :
    chainOuts .decrypt mode p k n (chainOuts .encrypt mode p k n m c ++ rest) c = m.take (n * p.blockSize) ∧
    chainAfter .decrypt mode p k n (chainOuts .encrypt mode p k n m c ++ rest) c =
      chainAfter .encrypt mode p k n m c := by
  induction n generalizing m c with
  | zero => simp [chainOuts, chainAfter]
  | succ n ih =>
    rw [Nat.add_mul, Nat.one_mul] at hm ⊢
    have hx : (m.take p.blockSize).length = p.blockSize := List.length_take_of_le (by omega)
    have hblock := h.length_out .encrypt k hx
    obtain ⟨hout, hnext⟩ := h.decrypt_block k hx
    obtain ⟨houts, hafter⟩ := ih (h.next .encrypt k hx) (m := m.drop p.blockSize) (by rw [List.length_drop]; omega)
    simp only [chainOuts, chainAfter, List.append_assoc, List.take_left' hblock, List.drop_left' hblock, hout, hnext,
      houts, hafter, and_true]
    rw [Nat.add_comm, List.take_add]

/-- A final fragment is xored with the same keystream in both directions. -/
theorem fragment_cancel {ks x : Bytes} (h : x.length ≤ ks.length) :
    xorB (ks.take (xorB (ks.take x.length) x).length) (xorB (ks.take x.length) x) = x := by
  have hlen : (xorB (ks.take x.length) x).length = x.length := by simp [h]
  rw [hlen]
  exact xorB_cancel_left (by simp [h])

/-- Ciphertext stealing undone: the last block, under the later tweak, gives the fragment and the rest of the block that
was stolen from, which completes that block (`46_xts.md` R145, R146). -/
theorem Chain.Sized.decrypt_stealing {p : Primitive} {c : Chain} (h : c.Sized .xts p.blockSize) (k : Bytes) {x : Bytes}
    (hlong : 16 < x.length) (hlt : x.length < 32) :
    flushOut .decrypt .xts p k (flushOut .encrypt .xts p k x c) c = x := by
  have h16 := h.xts rfl
  have later : Chain.Sized .xts p.blockSize { c with tweak := mulAlpha c.tweak } := h.next .encrypt k (length_zeros _)
  have ha : (x.take 16).length = p.blockSize := by rw [List.length_take, h16]; omega
  have hb : (x.drop 16).length = x.length - 16 := List.length_drop
  have hcc := h.length_out .encrypt k ha
  have hstolen := (h.decrypt_block k ha).1
  have hx := List.take_append_drop 16 x
  simp only [flushOut, h16, if_neg (Nat.ne_of_gt hlong)]
  generalize chainOut .encrypt .xts p k (x.take 16) c = cc at *
  have hpp : (x.drop 16 ++ cc.drop (x.length - 16)).length = p.blockSize := by
    rw [List.length_append, List.length_drop, List.length_drop, hcc]; omega
  have hca := later.length_out .encrypt k hpp
  have hlast := (later.decrypt_block k hpp).1
  generalize chainOut .encrypt .xts p k (x.drop 16 ++ cc.drop (x.length - 16)) { c with tweak := mulAlpha c.tweak } = ca
    at *
  rw [h16] at hca
  have hlen : (ca ++ cc.take (x.length - 16)).length = x.length := by
    rw [List.length_append, List.length_take, hca, hcc]; omega
  rw [hlen, if_neg (Nat.ne_of_gt hlong), List.take_left' hca, List.drop_left' hca, hlast, List.drop_left' hb,
    List.take_left' hb, List.take_append_drop, hstolen, hx]

/-- `Flush` of the two directions: what waits at the end of a message comes back, if the mode gives it out
(`41_engine_commands.md` R96). -/
theorem Chain.Sized.decrypt_flush {mode : Mode} {p : Primitive} {c : Chain} (h : c.Sized mode p.blockSize) (k : Bytes)
    {x : Bytes} (hempty : mode = .ecb ∨ mode = .cbc → x = []) (hlt : mode ≠ .xts → x.length < p.blockSize)
    (hxts : mode = .xts → p.blockSize ≤ x.length ∧ x.length < 2 * p.blockSize) :
    flushOut .decrypt mode p k (flushOut .encrypt mode p k x c) c = x := by
  cases mode with
  | ecb => exact (hempty (.inl rfl)).symm
  | cbc => exact (hempty (.inr rfl)).symm
  | cfb | ofb | ctr => exact fragment_cancel (by rw [length_E]; exact Nat.le_of_lt (hlt (by simp)))
  | xts =>
    have h16 := h.xts rfl
    obtain ⟨hle, hlt2⟩ := hxts rfl
    by_cases hl : x.length = p.blockSize
    · simp only [flushOut, if_pos hl, if_pos (h.length_out .encrypt k hl)]
      exact (h.decrypt_block k hl).1
    · exact h.decrypt_stealing k (by omega) (by omega)

/-! A whole message -/

/-- A length the mode can process whole lets the message end (`60_exceptions.md` R170). -/
theorem long_of_compatible {s : State} {n : Nat} (start : s.pos = 0) (hc : compatible s.mode s.bs n) :
    ¬ (s.mode = .xts ∧ s.pos + n < s.bs) := by
  rintro ⟨hm, short⟩
  rw [hm] at hc
  have hle : s.bs ≤ n := hc
  omega

theorem compatible_mod {mode : Mode} {bs n : Nat} (hc : compatible mode bs n) (hm : mode = .ecb ∨ mode = .cbc) :
    n % bs = 0 := by
  rcases hm with rfl | rfl <;> exact hc

/-- The ciphertext of a message of a compatible length is as long as the message (`41_engine_commands.md` R103). -/
theorem State.Inv.length_streamOut_of_compatible {s : State} (h : s.Inv) (ready : s.phase = .ready) (start : s.pos = 0)
    (dir : Dir) {m : Bytes} (hc : compatible s.mode s.bs m.length) : (s.streamOut dir true m).length = m.length := by
  have hlong := long_of_compatible start hc
  rw [h.length_streamOut ready dir true m fun short => hlong ⟨short.1, short.2.2⟩, h.carry_of_start ready start]
  simp only [reduceCtorEq, if_false, List.length_nil, Nat.zero_add]
  split
  · rename_i hm
    exact Nat.div_mul_cancel (Nat.dvd_of_mod_eq_zero (compatible_mod hc hm))
  · rfl

/-- What is left for `Flush` of a message of a compatible length: nothing in ECB and CBC, a fragment in CFB, OFB and
CTR, and the held block with less than one more in XTS. -/
theorem rest_of_compatible {mode : Mode} {bs : Nat} {m : Bytes} (hbs : 1 ≤ bs) (hc : compatible mode bs m.length) :
    let rest := m.drop (readyBlocks mode bs m.length * bs)
    (mode = .ecb ∨ mode = .cbc → rest = []) ∧ (mode ≠ .xts → rest.length < bs) ∧
      (mode = .xts → bs ≤ rest.length ∧ rest.length < 2 * bs) := by
  have hlt := rest_lt mode hbs m.length
  simp only [List.length_drop]
  refine ⟨fun hm => ?_, fun hm => hlt.trans_eq (if_neg hm), fun hm => ⟨?_, hlt.trans_eq (if_pos hm)⟩⟩
  · have hn : readyBlocks mode bs m.length = m.length / bs := if_neg (by rcases hm with rfl | rfl <;> simp)
    rw [hn, Nat.div_mul_cancel (Nat.dvd_of_mod_eq_zero (compatible_mod hc hm)), List.drop_length]
  · subst hm
    exact rest_held hbs hc

/-- The output of a whole message from its start. -/
theorem streamOut_of_start {s : State} (hcarry : s.carry = []) (dir : Dir) {m : Bytes} {n : Nat}
    (hn : readyBlocks s.mode s.bs m.length = n) :
    s.streamOut dir true m = chainOuts dir s.mode s.prim s.k1 n m s.chain ++
      flushOut dir s.mode s.prim s.k1 (m.drop (n * s.bs)) (chainAfter dir s.mode s.prim s.k1 n m s.chain) := by
  simp only [State.streamOut, hcarry, List.nil_append, hn, if_true]

/-- The one command that decrypts undoes the one that encrypts, from the same start of message: first the complete
blocks, which leave both sides with the same chaining registers, then what `Flush` gave out
(`41_engine_commands.md` R105). -/
theorem State.Inv.decrypt_message {s : State} (h : s.Inv) (ready : s.phase = .ready) (start : s.pos = 0) {m : Bytes}
    (hc : compatible s.mode s.bs m.length) : s.streamOut .decrypt true (s.streamOut .encrypt true m) = m := by
  have hcarry := h.carry_of_start ready start
  have hsized := h.sized (by simp [ready])
  have hlen := h.length_streamOut_of_compatible ready start .encrypt hc
  obtain ⟨hempty, hlt, hheld⟩ := rest_of_compatible h.admissible.1 hc
  have hle := readyBlocks_mul_le s.mode s.bs m.length
  generalize hn : readyBlocks s.mode s.bs m.length = n at hempty hlt hheld hle
  obtain ⟨tail, hcipher, hflush⟩ : ∃ tail,
      s.streamOut .encrypt true m = chainOuts .encrypt s.mode s.prim s.k1 n m s.chain ++ tail ∧
      flushOut .decrypt s.mode s.prim s.k1 tail (chainAfter .encrypt s.mode s.prim s.k1 n m s.chain) =
        m.drop (n * s.bs) :=
    ⟨_, streamOut_of_start hcarry .encrypt hn,
      (hsized.after .encrypt s.k1 n hle).decrypt_flush s.k1 hempty hlt hheld⟩
  have hdrop : (s.streamOut .encrypt true m).drop (n * s.bs) = tail := by
    rw [hcipher]
    exact List.drop_left' (hsized.length_outs .encrypt s.k1 n hle)
  obtain ⟨houts, hafter⟩ := hsized.decrypt_blocks s.k1 n hle tail
  rw [← hcipher] at houts hafter
  rw [streamOut_of_start hcarry .decrypt (by rw [hlen, hn]), houts, hafter, hdrop, hflush]
  exact List.take_append_drop _ _

/-- Settles O51: on both sides the pieces are the one command, and the command that decrypts undoes the other. -/
theorem decryptionUndoesEncryption : Obligations.DecryptionUndoesEncryption := by
  intro pieces pieces' final final' s h ready start hc
  obtain ⟨outs, lastOut, -, hout, hissue⟩ := h.issue_message ready .encrypt pieces final (long_of_compatible start hc)
  refine ⟨_, hissue, fun hcut => ?_⟩
  rw [outputSince_answered (streamed_outbox .encrypt true _ s), hout] at hcut
  have long := long_of_compatible start hc
  rw [← h.length_streamOut_of_compatible ready start .encrypt hc, ← hcut] at long
  obtain ⟨outs', lastOut', -, hout', hissue'⟩ := h.issue_message ready .decrypt pieces' final' long
  refine ⟨_, hissue', ?_⟩
  rw [outputSince_answered (streamed_outbox .decrypt true _ s), hout', hcut, h.decrypt_message ready start hc]

end Sys2Proof.Machine
end

section
/-! Proofs: the data commands in ECB (`42_ecb.md`). The block operation keeps the chaining registers, so every complete
block goes through the primitive by itself. -/

namespace Sys2Proof.Machine

/-! The block operation -/

/-- ECB reads no chaining register (`42_ecb.md` R110, R111). -/
theorem chainOut_ecb {mode : Mode} (hm : mode = .ecb) (dir : Dir) (p : Primitive) (k x : Bytes) (c : Chain) :
    chainOut dir mode p k x c = blockFunction dir p k x := by
  subst hm
  cases dir <;> rfl

/-- ECB writes no chaining register (`42_ecb.md` R110, R111). -/
theorem chainNext_ecb {mode : Mode} (hm : mode = .ecb) (dir : Dir) (p : Primitive) (k x : Bytes) (c : Chain) :
    chainNext dir mode p k x c = c := by
  subst hm
  rfl

/-- The arbiter's law in ECB: one application of the primitive, and `BLKIDX` one more (`41_engine_commands.md` R98). -/
theorem blockOp_ecb {s : State} (hm : s.mode = .ecb) (dir : Dir) (x : Bytes) :
    blockOp dir x s = (blockFunction dir s.prim s.k1 x, { s with blkIdx := s.blkIdx + 1 }) := by
  rw [blockOp_eq, chainOut_ecb hm, chainNext_ecb hm]
  rfl

/-- Settles O30: the law of the arbiter in ECB, for each direction. -/
theorem ecbBlockOperations : Obligations.EcbBlockOperations :=
  fun x _ hm => ⟨blockOp_ecb hm .encrypt x, blockOp_ecb hm .decrypt x⟩

/-! A whole command -/

theorem chainAfter_ecb {mode : Mode} (hm : mode = .ecb) (dir : Dir) (p : Primitive) (k : Bytes) (n : Nat) (m : Bytes)
    (c : Chain) : chainAfter dir mode p k n m c = c := by
  induction n with
  | zero => rfl
  | succ n ih => rw [chainAfter_succ, ih, chainNext_ecb hm]

theorem chainOuts_ecb {mode : Mode} (hm : mode = .ecb) (dir : Dir) (p : Primitive) (k : Bytes) (n : Nat) (m : Bytes)
    (c : Chain) :
    chainOuts dir mode p k n m c = blocksOut n fun j => blockFunction dir p k (blockAt p.blockSize m j) := by
  simp only [chainOuts_eq_blocksOut, chainOut_ecb hm]

/-! `Flush` does nothing in ECB and CBC: no output, and every register as it was (`41_engine_commands.md` R96). -/

theorem flushOut_of_ecb_or_cbc {mode : Mode} (hm : mode = .ecb ∨ mode = .cbc) (dir : Dir) (p : Primitive)
    (k x : Bytes) (c : Chain) : flushOut dir mode p k x c = [] := by
  rcases hm with rfl | rfl <;> rfl

theorem flushChain_of_ecb_or_cbc {mode : Mode} (hm : mode = .ecb ∨ mode = .cbc) (p : Primitive) (k x : Bytes)
    (c : Chain) : flushChain mode p k x c = c := by
  rcases hm with rfl | rfl <;> rfl

theorem flushCarry_of_ecb_or_cbc {mode : Mode} (hm : mode = .ecb ∨ mode = .cbc) (x : Bytes) : flushCarry mode x = x := by
  rcases hm with rfl | rfl <;> rfl

/-- A data command in READY in a mode whose `Flush` does nothing: the complete blocks are processed and the rest stays
in `CARRY`, with LAST too, which then changes `PHASE` only (`41_engine_commands.md` R93, R96). -/
theorem exec_dataInstr_of_ecb_or_cbc {s : State} (hbs : 1 ≤ s.bs) (ready : s.phase = .ready)
    (hm : s.mode = .ecb ∨ s.mode = .cbc) (dir : Dir) (last : Bool) (data : Bytes) :
    let buf := s.carry ++ data
    let n := buf.length / s.bs
    exec (dataInstr dir last data) s = .next
      { s.moved (chainAfter dir s.mode s.prim s.k1 n buf s.chain) (buf.drop (n * s.bs)) (s.blkIdx + n) with
        phase := if last then .done else .ready
        pos := s.pos + data.length
        outbox := s.outbox ++ [okAnswer (chainOuts dir s.mode s.prim s.k1 n buf s.chain)] } := by
  have hx : s.mode ≠ .xts := by rcases hm with hm | hm <;> simp [hm]
  have hblocks : ∀ len, readyBlocks s.mode s.bs len = len / s.bs := fun _ => if_neg hx
  have hcount : flushBlocks s.mode = 0 := if_neg hx
  simp only [exec_dataInstr, dataCommand_ready dir last data s hbs ready fun short => hx short.1, State.streamed,
    State.streamOut, hblocks, hcount, flushOut_of_ecb_or_cbc hm, flushChain_of_ecb_or_cbc hm,
    flushCarry_of_ecb_or_cbc hm, Nat.add_zero, ite_self, List.append_nil, ready]
  rfl

/-- Settles O37: no block moves the chaining registers and `Flush` does nothing, so the command is its complete blocks,
each by itself. -/
theorem ecbDataCommands : Obligations.EcbDataCommands := by
  intro dir last data s hp ready hm
  rw [exec_dataInstr_of_ecb_or_cbc hp.1 ready (.inl hm), chainAfter_ecb hm, chainOuts_ecb hm]
  rfl

end Sys2Proof.Machine
end

section
/-! Proofs: the data commands in CBC (`43_cbc.md`). The block operation writes `PREV` only: with the block it gives out
to encrypt, with the block it takes in to decrypt. -/

namespace Sys2Proof.Machine

/-! The block operation -/

/-- `CbcEnc` writes the block it gives out to `PREV` (`43_cbc.md` R115). -/
theorem chainNext_cbc_encrypt {mode : Mode} (hm : mode = .cbc) (p : Primitive) (k x : Bytes) (c : Chain) :
    chainNext .encrypt mode p k x c = { c with prev := E p k (xorB x c.prev) } := by
  subst hm
  rfl

theorem chainOut_cbc_encrypt {mode : Mode} (hm : mode = .cbc) (p : Primitive) (k x : Bytes) (c : Chain) :
    chainOut .encrypt mode p k x c = E p k (xorB x c.prev) := by
  subst hm
  rfl

/-- Decryption in CBC and CFB writes the block it takes in to `PREV` (`43_cbc.md` R116, `44_cfb_ofb.md` R121). -/
theorem chainNext_decrypt_of_cbc_or_cfb {mode : Mode} (hm : mode = .cbc ∨ mode = .cfb) (p : Primitive)
    (k x : Bytes) (c : Chain) : chainNext .decrypt mode p k x c = { c with prev := x } := by
  rcases hm with rfl | rfl <;> rfl

theorem chainOut_cbc_decrypt {mode : Mode} (hm : mode = .cbc) (p : Primitive) (k x : Bytes) (c : Chain) :
    chainOut .decrypt mode p k x c = xorB (D p k x) c.prev := by
  subst hm
  rfl

/-- Settles O31: the law of the arbiter in CBC, for each direction. -/
theorem cbcBlockOperations : Obligations.CbcBlockOperations := by
  intro x s hm
  constructor
  · rw [blockOp_eq, chainOut_cbc_encrypt hm, chainNext_cbc_encrypt hm]
    rfl
  · rw [blockOp_eq, chainOut_cbc_decrypt hm, chainNext_decrypt_of_cbc_or_cfb (.inl hm)]
    rfl

/-! A run of blocks -/

/-- Encryption: after `n` blocks `PREV` holds ciphertext block `n` of the chain (`43_cbc.md` R115). -/
theorem chainAfter_cbc_encrypt {mode : Mode} (hm : mode = .cbc) (p : Primitive) (k : Bytes) (n : Nat) (m : Bytes)
    (c : Chain) : chainAfter .encrypt mode p k n m c = { c with prev := cbcCipher p k c.prev m n } := by
  induction n with
  | zero => rfl
  | succ n ih => rw [chainAfter_succ, ih, chainNext_cbc_encrypt hm, cbcCipher]

theorem chainOuts_cbc_encrypt {mode : Mode} (hm : mode = .cbc) (p : Primitive) (k : Bytes) (n : Nat) (m : Bytes)
    (c : Chain) : chainOuts .encrypt mode p k n m c = blocksOut n fun j => cbcCipher p k c.prev m (j + 1) := by
  simp only [chainOuts_eq_blocksOut, chainOut_cbc_encrypt hm, chainAfter_cbc_encrypt hm, cbcCipher]

/-- Decryption in CBC and CFB: after `n` blocks `PREV` holds the last ciphertext block taken in (`43_cbc.md` R116,
`44_cfb_ofb.md` R121). -/
theorem chainAfter_decrypt_of_cbc_or_cfb {mode : Mode} (hm : mode = .cbc ∨ mode = .cfb) (p : Primitive) (k : Bytes)
    (n : Nat) (m : Bytes) (c : Chain) :
    chainAfter .decrypt mode p k n m c = { c with prev := feedback p.blockSize c.prev m n } := by
  induction n with
  | zero => rfl
  | succ n ih => rw [chainAfter_succ, ih, chainNext_decrypt_of_cbc_or_cfb hm, feedback]

theorem chainOuts_cbc_decrypt {mode : Mode} (hm : mode = .cbc) (p : Primitive) (k : Bytes) (n : Nat) (m : Bytes)
    (c : Chain) :
    chainOuts .decrypt mode p k n m c = blocksOut n fun j =>
      xorB (D p k (blockAt p.blockSize m j)) (feedback p.blockSize c.prev m j) := by
  simp only [chainOuts_eq_blocksOut, chainOut_cbc_decrypt hm, chainAfter_decrypt_of_cbc_or_cfb (.inl hm)]

/-- Settles O38: `Flush` does nothing in CBC, so the command is the run of its complete blocks, which moves `PREV` along
the chain of ciphertext blocks. -/
theorem cbcDataCommands : Obligations.CbcDataCommands := by
  intro last data s hp ready hm
  constructor
  · rw [exec_dataInstr_of_ecb_or_cbc hp.1 ready (.inr hm), chainAfter_cbc_encrypt hm, chainOuts_cbc_encrypt hm]
    rfl
  · rw [exec_dataInstr_of_ecb_or_cbc hp.1 ready (.inr hm), chainAfter_decrypt_of_cbc_or_cfb (.inl hm),
      chainOuts_cbc_decrypt hm]
    rfl

end Sys2Proof.Machine
end

section
/-! Proofs: the data commands in CFB and OFB (`44_cfb_ofb.md`). The block operations write `PREV` only, and a final
fragment is xored with the first bytes of the next keystream block. -/

namespace Sys2Proof.Machine

/-! The block operations -/

/-- `CfbEnc` writes the block it gives out to `PREV` (`44_cfb_ofb.md` R120). -/
theorem chainNext_cfb_encrypt {mode : Mode} (hm : mode = .cfb) (p : Primitive) (k x : Bytes) (c : Chain) :
    chainNext .encrypt mode p k x c = { c with prev := xorB (E p k c.prev) x } := by
  subst hm
  rfl

theorem chainOut_cfb {mode : Mode} (hm : mode = .cfb) (dir : Dir) (p : Primitive) (k x : Bytes) (c : Chain) :
    chainOut dir mode p k x c = xorB (E p k c.prev) x := by
  subst hm
  rfl

/-- `OfbBlk` writes the keystream block to `PREV`, whatever the data (`44_cfb_ofb.md` R122). -/
theorem chainNext_ofb {mode : Mode} (hm : mode = .ofb) (dir : Dir) (p : Primitive) (k x : Bytes) (c : Chain) :
    chainNext dir mode p k x c = { c with prev := E p k c.prev } := by
  subst hm
  rfl

theorem chainOut_ofb {mode : Mode} (hm : mode = .ofb) (dir : Dir) (p : Primitive) (k x : Bytes) (c : Chain) :
    chainOut dir mode p k x c = xorB x (E p k c.prev) := by
  subst hm
  rfl

/-- Settles O32: the law of the arbiter in CFB, for each direction, and the definition of the tail operation. -/
theorem cfbBlockOperations : Obligations.CfbBlockOperations := by
  intro x s hm
  refine ⟨?_, ?_, rfl⟩
  · rw [blockOp_eq, chainOut_cfb hm, chainNext_cfb_encrypt hm]
    rfl
  · rw [blockOp_eq, chainOut_cfb hm, chainNext_decrypt_of_cbc_or_cfb (.inr hm)]
    rfl

/-- Settles O33: the law of the arbiter in OFB, the same in both directions, and the definition of the tail
operation. -/
theorem ofbBlockOperations : Obligations.OfbBlockOperations := by
  intro x s hm
  refine ⟨fun dir => ?_, rfl⟩
  rw [blockOp_eq, chainOut_ofb hm, chainNext_ofb hm]
  rfl

/-! A run of blocks -/

/-- Encryption: after `n` blocks `PREV` holds ciphertext block `n` of the chain (`44_cfb_ofb.md` R120). -/
theorem chainAfter_cfb_encrypt {mode : Mode} (hm : mode = .cfb) (p : Primitive) (k : Bytes) (n : Nat) (m : Bytes)
    (c : Chain) : chainAfter .encrypt mode p k n m c = { c with prev := cfbCipher p k c.prev m n } := by
  induction n with
  | zero => rfl
  | succ n ih => rw [chainAfter_succ, ih, chainNext_cfb_encrypt hm, cfbCipher]

theorem chainOuts_cfb_encrypt {mode : Mode} (hm : mode = .cfb) (p : Primitive) (k : Bytes) (n : Nat) (m : Bytes)
    (c : Chain) : chainOuts .encrypt mode p k n m c = blocksOut n fun j => cfbCipher p k c.prev m (j + 1) := by
  simp only [chainOuts_eq_blocksOut, chainOut_cfb hm, chainAfter_cfb_encrypt hm, cfbCipher]

theorem chainOuts_cfb_decrypt {mode : Mode} (hm : mode = .cfb) (p : Primitive) (k : Bytes) (n : Nat) (m : Bytes)
    (c : Chain) :
    chainOuts .decrypt mode p k n m c = blocksOut n fun j =>
      xorB (E p k (feedback p.blockSize c.prev m j)) (blockAt p.blockSize m j) := by
  simp only [chainOuts_eq_blocksOut, chainOut_cfb hm, chainAfter_decrypt_of_cbc_or_cfb (.inr hm)]

theorem ofbStream_succ (p : Primitive) (k prev : Bytes) (j : Nat) :
    ofbStream p k prev (j + 1) = E p k (ofbStream p k prev j) :=
  Function.iterate_succ_apply' (E p k) j prev

/-- After `n` blocks `PREV` holds keystream block `n`, whatever the data (`44_cfb_ofb.md` R122, R126). -/
theorem chainAfter_ofb {mode : Mode} (hm : mode = .ofb) (dir : Dir) (p : Primitive) (k : Bytes) (n : Nat) (m : Bytes)
    (c : Chain) : chainAfter dir mode p k n m c = { c with prev := ofbStream p k c.prev n } := by
  induction n with
  | zero => rfl
  | succ n ih => rw [chainAfter_succ, ih, chainNext_ofb hm, ofbStream_succ]

theorem chainOuts_ofb {mode : Mode} (hm : mode = .ofb) (dir : Dir) (p : Primitive) (k : Bytes) (n : Nat) (m : Bytes)
    (c : Chain) :
    chainOuts dir mode p k n m c = blocksOut n fun j =>
      xorB (blockAt p.blockSize m j) (ofbStream p k c.prev (j + 1)) := by
  simp only [chainOuts_eq_blocksOut, chainOut_ofb hm, chainAfter_ofb hm, ofbStream_succ]

/-! The final fragment -/

theorem flushOut_of_cfb_or_ofb {mode : Mode} (hm : mode = .cfb ∨ mode = .ofb) (dir : Dir) (p : Primitive)
    (k x : Bytes) (c : Chain) : flushOut dir mode p k x c = xorB ((E p k c.prev).take x.length) x := by
  rcases hm with rfl | rfl <;> rfl

theorem flushChain_cfb {mode : Mode} (hm : mode = .cfb) (p : Primitive) (k x : Bytes) (c : Chain) :
    flushChain mode p k x c = c := by
  subst hm
  rfl

theorem flushChain_ofb {mode : Mode} (hm : mode = .ofb) (p : Primitive) (k x : Bytes) (c : Chain) :
    flushChain mode p k x c = if x.length = 0 then c else { c with prev := E p k c.prev } := by
  subst hm
  rfl

/-- The blocks that cover a string are its complete blocks, and one more for the rest if there is any. -/
theorem blocksCovering_eq {bs : Nat} (hbs : 1 ≤ bs) (m : Bytes) :
    blocksCovering bs m.length =
      m.length / bs + if (m.drop (m.length / bs * bs)).length = 0 then 0 else 1 := by
  have hdiv := Nat.div_add_mod m.length bs
  have hmod := Nat.mod_lt m.length hbs
  rw [Nat.mul_comm] at hdiv
  rw [List.length_drop, blocksCovering]
  split <;> apply Nat.div_eq_of_lt_le <;> simp only [Nat.add_mul, Nat.one_mul, Nat.zero_mul] <;> omega

/-- After a whole message in OFB, a final fragment has used up one keystream block (`44_cfb_ofb.md` R124). -/
theorem flushChain_ofb_rest {mode : Mode} (hm : mode = .ofb) {p : Primitive} (hbs : 1 ≤ p.blockSize)
    (k prev m : Bytes) (c : Chain) :
    flushChain mode p k (m.drop (m.length / p.blockSize * p.blockSize))
        { c with prev := ofbStream p k prev (m.length / p.blockSize) } =
      { c with prev := ofbStream p k prev (blocksCovering p.blockSize m.length) } := by
  rw [blocksCovering_eq hbs, flushChain_ofb hm]
  split
  · rfl
  · rw [ofbStream_succ]

/-! A whole command -/

/-- A data command in READY in a mode that gives out the final fragment, CFB, OFB or CTR: the complete blocks are
processed; with LAST the rest is flushed and `CARRY` is empty (`41_engine_commands.md` R93, R96). -/
theorem exec_dataInstr_of_fragment_mode {s : State} (hbs : 1 ≤ s.bs) (ready : s.phase = .ready)
    (hm : s.mode = .cfb ∨ s.mode = .ofb ∨ s.mode = .ctr) (dir : Dir) (last : Bool) (data : Bytes) :
    let buf := s.carry ++ data
    let n := buf.length / s.bs
    let rest := buf.drop (n * s.bs)
    let c := chainAfter dir s.mode s.prim s.k1 n buf s.chain
    exec (dataInstr dir last data) s = .next
      { s.moved (if last then flushChain s.mode s.prim s.k1 rest c else c) (if last then [] else rest)
          (s.blkIdx + n) with
        phase := if last then .done else .ready
        pos := s.pos + data.length
        outbox := s.outbox ++ [okAnswer (chainOuts dir s.mode s.prim s.k1 n buf s.chain ++
          if last then flushOut dir s.mode s.prim s.k1 rest c else [])] } := by
  obtain ⟨hecb, hcbc, hx⟩ : s.mode ≠ .ecb ∧ s.mode ≠ .cbc ∧ s.mode ≠ .xts := by
    rcases hm with hm | hm | hm <;> simp [hm]
  have hblocks : ∀ len, readyBlocks s.mode s.bs len = len / s.bs := fun _ => if_neg hx
  have hcount : flushBlocks s.mode = 0 := if_neg hx
  simp only [exec_dataInstr, dataCommand_ready dir last data s hbs ready fun short => hx short.1, State.streamed,
    State.streamOut, hblocks, hcount, flushCarry_eq_nil hecb hcbc, Nat.add_zero, ready]
  cases last <;> rfl

/-- Settles O39: the command is the run of its complete blocks, which moves `PREV` along the chain of ciphertext
blocks, and with LAST the final fragment, which leaves `PREV`. -/
theorem cfbDataCommands : Obligations.CfbDataCommands := by
  intro last data s hp ready hm
  constructor
  · rw [exec_dataInstr_of_fragment_mode hp.1 ready (.inl hm), chainAfter_cfb_encrypt hm, chainOuts_cfb_encrypt hm,
      flushChain_cfb hm, flushOut_of_cfb_or_ofb (.inl hm), ite_self]
    rfl
  · rw [exec_dataInstr_of_fragment_mode hp.1 ready (.inl hm), chainAfter_decrypt_of_cbc_or_cfb (.inr hm),
      chainOuts_cfb_decrypt hm, flushChain_cfb hm, flushOut_of_cfb_or_ofb (.inl hm), ite_self]
    rfl

/-- Settles O40: the complete blocks use up one keystream block each, and with LAST a final fragment uses up one
more. -/
theorem ofbDataCommands : Obligations.OfbDataCommands := by
  intro dir last data s hp ready hm
  rw [exec_dataInstr_of_fragment_mode hp.1 ready (.inr (.inl hm)), chainAfter_ofb hm, chainOuts_ofb hm,
    flushChain_ofb_rest hm hp.1, flushOut_of_cfb_or_ofb (.inr hm)]
  simp only [← ofbStream_succ]
  cases last <;> rfl

end Sys2Proof.Machine
end

section
/-! Proofs: the counter increment and the counter sequence (`45_ctr.md` R131, R132, R135, R137). Every claim is one
about the big-endian integer, which tells apart the strings of one length. -/

namespace Sys2Proof.Machine

/-! The byte loop -/

/-- A byte appended at the end is the new least significant one. -/
theorem beInt_append_singleton (a : Bytes) (b : Byte) : beInt (a ++ [b]) = beInt a * 256 + b.toNat := by
  induction a with
  | nil => simp [beInt]
  | cons x a ih =>
    simp only [List.cons_append, beInt, ih, List.length_append, List.length_singleton, Nat.pow_succ]
    ring

/-- The two byte orders read a string from its two ends (`00_scope.md` R14). -/
theorem beInt_reverse (a : Bytes) : beInt a.reverse = leInt a := by
  induction a with
  | nil => rfl
  | cons b a ih => rw [List.reverse_cons, beInt_append_singleton, ih, leInt, Nat.mul_comm, Nat.add_comm]

@[simp] theorem length_incRipple (a : Bytes) : (incRipple a).length = a.length := by
  induction a with
  | nil => rfl
  | cons b a ih =>
    unfold incRipple
    split <;> simp [ih]

/-- The loop adds one: a byte `0xff` gives 0 and carries, and any other byte takes the carry (`45_ctr.md` R132). -/
theorem leInt_incRipple (a : Bytes) : leInt (incRipple a) = (leInt a + 1) % 256 ^ a.length := by
  induction a with
  | nil => rfl
  | cons b a ih =>
    unfold incRipple
    split
    · rename_i hb
      have hsum : leInt (b :: a) + 1 = 256 * (leInt a + 1) := by
        simp only [hb, leInt, BitVec.reduceToNat]
        ring
      rw [hsum, List.length_cons, Nat.pow_succ', Nat.mul_mod_mul_left, ← ih]
      simp [leInt]
    · rename_i hb
      have hbyte : (b + 1).toNat = b.toNat + 1 := by bv_omega
      have hsum : leInt (b :: a) + 1 = leInt ((b + 1) :: a) := by
        simp only [leInt, hbyte]
        ring
      rw [hsum]
      exact (Nat.mod_eq_of_lt (leInt_lt ((b + 1) :: a))).symm

/-- The byte form of `inc` (`45_ctr.md` R132). -/
theorem inc_eq_incBytes (c : Bytes) : inc c = incBytes c := by
  apply beInt_injective
  · simp [incBytes]
  · rw [beInt_inc, incBytes, beInt_reverse, leInt_incRipple, ← beInt_reverse, List.reverse_reverse,
      List.length_reverse]

/-- Settles O26: the byte loop adds one to the little-endian integer of the reversed block. -/
theorem counterIncrement : Obligations.CounterIncrement :=
  fun c => ⟨length_inc c, by rw [beInt_inc, pow_eight_mul], inc_eq_incBytes c⟩

/-! The counter sequence -/

@[simp] theorem length_counterAt (c : Bytes) (n : Nat) : (counterAt c n).length = c.length := length_beBytes _ _

theorem beInt_counterAt (c : Bytes) (n : Nat) : beInt (counterAt c n) = (beInt c + n) % 256 ^ c.length := by
  rw [counterAt, beInt_beBytes, pow_eight_mul, Nat.mod_mod]

theorem counterAt_zero (c : Bytes) : counterAt c 0 = c :=
  beInt_injective (length_counterAt c 0) (by rw [beInt_counterAt, Nat.add_zero, Nat.mod_eq_of_lt (beInt_lt c)])

/-- The values after `counter_m` are those of the sequence it seeds (`45_ctr.md` R131). -/
theorem counterAt_add (c : Bytes) (m n : Nat) : counterAt (counterAt c m) n = counterAt c (m + n) :=
  beInt_injective (by simp) (by simp only [beInt_counterAt, length_counterAt, Nat.mod_add_mod, Nat.add_assoc])

/-- An increment is the step from one counter value to the next. -/
theorem inc_counterAt (c : Bytes) (n : Nat) : inc (counterAt c n) = counterAt c (n + 1) := counterAt_add c n 1

/-- `n` advances from the seed give `counter_n` (`45_ctr.md` R137). -/
theorem inc_iterate (c : Bytes) (n : Nat) : inc^[n] c = counterAt c n := by
  induction n with
  | zero => exact (counterAt_zero c).symm
  | succ n ih => rw [Function.iterate_succ_apply', ih, inc_counterAt]

/-- The carry runs through a string of `0xff` and is lost (`45_ctr.md` R135). -/
theorem incRipple_replicate (n : Nat) : incRipple (List.replicate n 0xff) = zeros n := by
  induction n with
  | zero => rfl
  | succ n ih => rw [List.replicate_succ, incRipple, if_pos rfl, ih]; rfl

theorem inc_replicate (n : Nat) : inc (List.replicate n 0xff) = zeros n := by
  rw [inc_eq_incBytes, incBytes, List.reverse_replicate, incRipple_replicate, zeros, List.reverse_replicate]

/-- The sequence repeats after `256 ^ len` values (`45_ctr.md` R135). -/
theorem counterAt_period (c : Bytes) : counterAt c (256 ^ c.length) = c :=
  beInt_injective (length_counterAt c _) (by rw [beInt_counterAt, Nat.add_mod_right, Nat.mod_eq_of_lt (beInt_lt c)])

/-- Within a period no value comes twice (`45_ctr.md` R135). -/
theorem counterAt_injective {c : Bytes} {i j : Nat} (hi : i < 256 ^ c.length) (hj : j < 256 ^ c.length)
    (h : counterAt c i = counterAt c j) : i = j := by
  have hmod : beInt c + i ≡ beInt c + j [MOD 256 ^ c.length] := by
    rw [Nat.ModEq, ← beInt_counterAt, ← beInt_counterAt, h]
  exact (Nat.ModEq.add_left_cancel' _ hmod).eq_of_lt_of_lt hi hj

/-- Settles O27: element `n` of the sequence is `n` increments, so its laws are those of addition modulo the period. -/
theorem counterSequence : Obligations.CounterSequence := by
  intro c
  rw [pow_eight_mul]
  refine ⟨inc_iterate c, inc_replicate c.length, (inc_iterate c _).trans (counterAt_period c),
    fun i j hij hj heq => ?_⟩
  rw [inc_iterate, inc_iterate] at heq
  exact absurd (counterAt_injective (hij.trans hj) hj heq) (Nat.ne_of_lt hij)

end Sys2Proof.Machine
end

section
/-! Proofs: the data commands in CTR (`45_ctr.md`). A block operation, and a final fragment too, advances `CTR` by one
counter value, whatever the data and the direction. -/

namespace Sys2Proof.Machine

/-! The block operation -/

/-- `CtrBlk` advances `CTR` (`45_ctr.md` R133). -/
theorem chainNext_ctr {mode : Mode} (hm : mode = .ctr) (dir : Dir) (p : Primitive) (k x : Bytes) (c : Chain) :
    chainNext dir mode p k x c = { c with ctr := inc c.ctr } := by
  subst hm
  rfl

/-- The keystream block is that of `CTR` before the increment (`45_ctr.md` R133). -/
theorem chainOut_ctr {mode : Mode} (hm : mode = .ctr) (dir : Dir) (p : Primitive) (k x : Bytes) (c : Chain) :
    chainOut dir mode p k x c = xorB x (E p k c.ctr) := by
  subst hm
  rfl

/-- Settles O34: the law of the arbiter in CTR, the same in both directions, and the definition of the tail
operation. -/
theorem ctrBlockOperations : Obligations.CtrBlockOperations := by
  intro x s hm
  refine ⟨fun dir => ?_, rfl⟩
  rw [blockOp_eq, chainOut_ctr hm, chainNext_ctr hm]
  rfl

/-! A run of blocks -/

/-- After `n` blocks `CTR` holds counter value `n` (`45_ctr.md` R137). -/
theorem chainAfter_ctr {mode : Mode} (hm : mode = .ctr) (dir : Dir) (p : Primitive) (k : Bytes) (n : Nat) (m : Bytes)
    (c : Chain) : chainAfter dir mode p k n m c = { c with ctr := counterAt c.ctr n } := by
  induction n with
  | zero => rw [counterAt_zero]; rfl
  | succ n ih => rw [chainAfter_succ, ih, chainNext_ctr hm, inc_counterAt]

theorem chainOuts_ctr {mode : Mode} (hm : mode = .ctr) (dir : Dir) (p : Primitive) (k : Bytes) (n : Nat) (m : Bytes)
    (c : Chain) :
    chainOuts dir mode p k n m c = blocksOut n fun j =>
      xorB (blockAt p.blockSize m j) (E p k (counterAt c.ctr j)) := by
  simp only [chainOuts_eq_blocksOut, chainOut_ctr hm, chainAfter_ctr hm]

/-! The final fragment -/

theorem flushOut_ctr {mode : Mode} (hm : mode = .ctr) (dir : Dir) (p : Primitive) (k x : Bytes) (c : Chain) :
    flushOut dir mode p k x c = xorB ((E p k c.ctr).take x.length) x := by
  subst hm
  rfl

theorem flushChain_ctr {mode : Mode} (hm : mode = .ctr) (p : Primitive) (k x : Bytes) (c : Chain) :
    flushChain mode p k x c = if x.length = 0 then c else { c with ctr := inc c.ctr } := by
  subst hm
  rfl

/-- After a whole message in CTR, a final fragment has consumed one counter value (`45_ctr.md` R134). -/
theorem flushChain_ctr_rest {mode : Mode} (hm : mode = .ctr) {p : Primitive} (hbs : 1 ≤ p.blockSize)
    (k seed m : Bytes) (c : Chain) :
    flushChain mode p k (m.drop (m.length / p.blockSize * p.blockSize))
        { c with ctr := counterAt seed (m.length / p.blockSize) } =
      { c with ctr := counterAt seed (blocksCovering p.blockSize m.length) } := by
  rw [blocksCovering_eq hbs, flushChain_ctr hm]
  split
  · rfl
  · rw [inc_counterAt]

/-! A whole command -/

/-- Settles O41: the complete blocks consume one counter value each, and with LAST a final fragment consumes one
more. -/
theorem ctrDataCommands : Obligations.CtrDataCommands := by
  intro dir last data s hp ready hm
  rw [exec_dataInstr_of_fragment_mode hp.1 ready (.inr (.inr hm)), chainAfter_ctr hm, chainOuts_ctr hm,
    flushChain_ctr_rest hm hp.1, flushOut_ctr hm]
  cases last <;> rfl

end Sys2Proof.Machine
end

section
/-! Proofs: every step keeps the cursors where the consumed stream puts them (`45_ctr.md` R131, R137, `46_xts.md`
R147). -/

namespace Sys2Proof.Machine

/-! The tweak sequence -/

theorem mulAlpha_tweakAt (t : Bytes) (n : Nat) : mulAlpha (tweakAt t n) = tweakAt t (n + 1) :=
  (Function.iterate_succ_apply' mulAlpha n t).symm

/-- The tweaks after `T_m` are those of the sequence that begins with it (`46_xts.md` R147). -/
theorem tweakAt_add (t : Bytes) (m n : Nat) : tweakAt (tweakAt t m) n = tweakAt t (m + n) := by
  rw [Nat.add_comm]
  exact (Function.iterate_add_apply mulAlpha n m t).symm

/-- `XtsEnc` and `XtsDec` advance `TWEAK` (`46_xts.md` R143, R144). -/
theorem chainNext_xts {mode : Mode} (hm : mode = .xts) (dir : Dir) (p : Primitive) (k x : Bytes) (c : Chain) :
    chainNext dir mode p k x c = { c with tweak := mulAlpha c.tweak } := by
  subst hm
  rfl

/-- After `n` blocks `TWEAK` holds tweak `n`, whatever the data (`46_xts.md` R147). -/
theorem chainAfter_xts {mode : Mode} (hm : mode = .xts) (dir : Dir) (p : Primitive) (k : Bytes) (n : Nat) (m : Bytes)
    (c : Chain) : chainAfter dir mode p k n m c = { c with tweak := tweakAt c.tweak n } := by
  induction n with
  | zero => rfl
  | succ n ih => rw [chainAfter_succ, ih, chainNext_xts hm, mulAlpha_tweakAt]

theorem flushChain_xts {mode : Mode} (hm : mode = .xts) (p : Primitive) (k x : Bytes) (c : Chain) :
    flushChain mode p k x c =
      if x.length = p.blockSize then { c with tweak := mulAlpha c.tweak }
      else { c with tweak := mulAlpha (mulAlpha c.tweak) } := by
  subst hm
  rfl

/-- What waits at the end of an XTS sector is one block to the last, or the last two of the blocks that cover the
sector. -/
theorem blocksCovering_eq_of_held {bs : Nat} (hbs : 1 ≤ bs) {m : Bytes} (hlong : bs ≤ m.length) :
    let n := readyBlocks .xts bs m.length
    blocksCovering bs m.length = if (m.drop (n * bs)).length = bs then n + 1 else n + 1 + 1 := by
  have hblocks : readyBlocks .xts bs m.length + 1 = m.length / bs :=
    Nat.sub_add_cancel ((Nat.one_le_div_iff hbs).mpr hlong)
  have hle := Nat.div_mul_le_self m.length bs
  rw [blocksCovering_eq hbs, ← hblocks]
  rw [← hblocks, Nat.add_mul, Nat.one_mul] at hle
  simp only [List.length_drop, Nat.add_mul, Nat.one_mul]
  split <;> split <;> omega

/-- After a whole sector in XTS, each of the blocks that cover it has used one tweak: stealing uses two
(`46_xts.md` R145 to R147). -/
theorem flushChain_xts_rest {mode : Mode} (hm : mode = .xts) {p : Primitive} (hbs : 1 ≤ p.blockSize) (k t : Bytes)
    {m : Bytes} (hlong : p.blockSize ≤ m.length) (c : Chain) :
    flushChain mode p k (m.drop (readyBlocks mode p.blockSize m.length * p.blockSize))
        { c with tweak := tweakAt t (readyBlocks mode p.blockSize m.length) } =
      { c with tweak := tweakAt t (blocksCovering p.blockSize m.length) } := by
  subst hm
  rw [blocksCovering_eq_of_held hbs hlong, flushChain_xts rfl]
  split <;> simp only [mulAlpha_tweakAt]

/-! A data command -/

/-- The counter values, or tweaks, that a data command consumes from the `len` bytes that are buffered. -/
def cursorBlocks (mode : Mode) (bs : Nat) (last : Bool) (len : Nat) : Nat :=
  if last then blocksCovering bs len else readyBlocks mode bs len

theorem streamed_ctr {s : State} (hbs : 1 ≤ s.bs) (hm : s.mode = .ctr) (dir : Dir) (last : Bool) (data : Bytes) :
    (s.streamed dir last data).ctr = counterAt s.ctr (cursorBlocks s.mode s.bs last (s.carry ++ data).length) := by
  have hblocks : ∀ len, readyBlocks s.mode s.bs len = len / s.bs := fun _ => if_neg (by simp [hm])
  simp only [State.streamed, cursorBlocks, hblocks, chainAfter_ctr hm, flushChain_ctr_rest hm hbs]
  cases last <;> rfl

/-- With LAST, the sector must be long enough (`60_exceptions.md` R170). -/
theorem streamed_tweak {s : State} (hbs : 1 ≤ s.bs) (hm : s.mode = .xts) (dir : Dir) {last : Bool} {data : Bytes}
    (hlong : last = true → s.bs ≤ (s.carry ++ data).length) :
    (s.streamed dir last data).tweak = tweakAt s.tweak (cursorBlocks s.mode s.bs last (s.carry ++ data).length) := by
  simp only [State.streamed, cursorBlocks, chainAfter_xts hm]
  cases last with
  | false => rfl
  | true =>
    simp only [if_true, flushChain_xts_rest hm hbs _ _ (hlong rfl)]
    rfl

theorem blocksCovering_mul_add {bs : Nat} (hbs : 1 ≤ bs) (k n : Nat) :
    blocksCovering bs (k * bs + n) = k + blocksCovering bs n := by
  rw [blocksCovering, blocksCovering, Nat.add_assoc, Nat.add_sub_assoc (by omega), Nat.mul_comm, Nat.mul_add_div hbs]

/-- The blocks consumed before a last data command and by it cover the position (`10_state.md` R29). -/
theorem State.Inv.blkIdx_add_covering {s : State} (h : s.Inv) (ready : s.phase = .ready) (data : Bytes) :
    s.blkIdx + blocksCovering s.bs (s.carry ++ data).length = blocksCovering s.bs (s.pos + data.length) := by
  rw [h.position ready, Nat.add_assoc, ← List.length_append, blocksCovering_mul_add h.admissible.1]

/-- An accepted data command advances the cursor by the blocks it consumes. -/
theorem State.CursorInv.streamed {s : State} (hc : s.CursorInv) (h : s.Inv) (ready : s.phase = .ready) (dir : Dir)
    {last : Bool} {data : Bytes} (long : ¬ (s.mode = .xts ∧ last = true ∧ s.pos + data.length < s.bs)) :
    (s.streamed dir last data).CursorInv := by
  have hbs : 1 ≤ s.bs := h.admissible.1
  have hctr (hm : s.mode = .ctr) : (s.streamed dir last data).ctr =
      counterAt s.seedCtr (s.blkIdx + cursorBlocks s.mode s.bs last (s.carry ++ data).length) := by
    rw [streamed_ctr hbs hm, hc.ctr_ready hm ready, counterAt_add]
  have htweak (hm : s.mode = .xts) : (s.streamed dir last data).tweak =
      tweakAt (E s.prim s.k2 s.seedSector)
        (s.blkIdx + cursorBlocks s.mode s.bs last (s.carry ++ data).length) := by
    have hlong (hl : last = true) : s.bs ≤ (s.carry ++ data).length := by
      rw [List.length_append, ← h.xts_buffered ready hm]
      exact Nat.le_of_not_lt fun hlt => long ⟨hm, hl, hlt⟩
    rw [streamed_tweak hbs hm dir hlong, hc.tweak_ready hm ready, tweakAt_add]
  cases last with
  | false =>
    exact ⟨fun hm _ => hctr hm, fun _ hd => absurd (ready.symm.trans hd) (by simp), fun hm _ => htweak hm,
      fun _ hd => absurd (ready.symm.trans hd) (by simp)⟩
  | true =>
    have hcover := h.blkIdx_add_covering ready data
    exact ⟨fun _ hr => absurd hr (by simp [State.streamed]), fun hm _ => (hctr hm).trans (congrArg _ hcover),
      fun _ hr => absurd hr (by simp [State.streamed]), fun hm _ => (htweak hm).trans (congrArg _ hcover)⟩

/-! A step -/

/-- The cursors do not depend on the ports and on `STICKY`. -/
theorem State.CursorInv.withPorts {s : State} (h : s.CursorInv) (sticky : BitVec 8) (inbox : List HostEvent)
    (outbox : List Answer) : { s with sticky := sticky, inbox := inbox, outbox := outbox }.CursorInv where
  __ := h

/-- `Seed()` puts both cursors at the first element of their sequences (`41_engine_commands.md` R92). -/
theorem State.seed_cursorInv (s : State) : s.seed.CursorInv where
  ctr_ready _ _ := (counterAt_zero _).symm
  ctr_done _ hd := absurd hd (by simp)
  tweak_ready hm _ := if_pos hm
  tweak_done _ hd := absurd hd (by simp)

/-- Whatever a command does keeps the cursors. -/
theorem Executes.cursorInv {s t : State} {i : Instr} (ht : Executes s i t) (h : s.Inv) (hc : s.CursorInv) :
    t.CursorInv := by
  cases ht with
  | error | status => exact hc.withPorts _ _ _
  | construct | restart => exact (State.seed_cursorInv _).withPorts _ _ _
  | data ready long =>
    rw [dataEffect_eq _ _ _ s h.admissible.1]
    exact (hc.streamed h ready _ long).withPorts _ _ _
  | destroy => exact State.cursorInv_of_idle rfl

/-- Settles O54: only the executed command can move a cursor, and a hardware reset goes to IDLE. -/
theorem everyStepKeepsTheCursors : Obligations.EveryStepKeepsTheCursors := by
  intro s t h hc hs
  rcases step_inversion hs with ⟨-, rfl⟩ | ⟨rest, -, rfl⟩ | ⟨r, rest, i, -, -, ht⟩ | ⟨r, rest, -, rfl⟩
  · exact hc
  · exact State.cursorInv_of_idle rfl
  · exact ht.cursorInv (h.withPorts h.sticky_zero _ _) (hc.withPorts _ _ _)
  · exact hc.withPorts _ _ _

end Sys2Proof.Machine
end

section
/-! Proofs: the multiplication by alpha (`46_xts.md` R142). Every claim is one about the little-endian integer, which
tells apart the strings of one length. -/

namespace Sys2Proof.Machine

/-! The value -/

/-- The bit that falls out of the top is set when the value is at least `2 ^ 127`; then the rest of the shifted value is
reduced by `0x87` (`46_xts.md` R142). -/
theorem leInt_mulAlpha {t : Bytes} (ht : t.length = 16) :
    leInt (mulAlpha t) =
      if 2 ^ 127 ≤ leInt t then (leInt t * 2 - 2 ^ 128) ^^^ 0x87 else leInt t * 2 := by
  have hlt : leInt t < 2 ^ 128 := by
    have := leInt_lt t
    rwa [ht, ← pow_eight_mul] at this
  rw [mulAlpha, leInt_leBytes, ← pow_eight_mul]
  by_cases htop : 2 ^ 127 ≤ leInt t
  · have hcarry : leInt t / 2 ^ 127 % 2 = 1 := by omega
    have hrest : leInt t * 2 % 2 ^ 128 = leInt t * 2 - 2 ^ 128 := by omega
    rw [if_pos htop, if_pos hcarry, hrest]
    exact Nat.mod_eq_of_lt (Nat.xor_lt_two_pow (by omega) (by decide))
  · have hcarry : leInt t / 2 ^ 127 % 2 ≠ 1 := by omega
    rw [if_neg htop, if_neg hcarry]
    omega

/-! The byte loop -/

@[simp] theorem length_shiftBytes (a : Bytes) (c : Nat) : (shiftBytes a c).1.length = a.length := by
  induction a generalizing c with
  | nil => rfl
  | cons b a ih => simp [shiftBytes, ih]

/-- The loop doubles the value and adds the bit that comes in; the bit that moves out stands above the last byte. -/
theorem leInt_shiftBytes (a : Bytes) {c : Nat} (hc : c ≤ 1) :
    leInt (shiftBytes a c).1 + 256 ^ a.length * (shiftBytes a c).2 = leInt a * 2 + c := by
  induction a generalizing c with
  | nil => simp [shiftBytes, leInt]
  | cons b a ih =>
    have hb : b.toNat < 256 := b.isLt
    have hrest := ih (c := b.toNat / 128) (by omega)
    simp only [shiftBytes, leInt, List.length_cons, Nat.pow_succ', Nat.mul_assoc, BitVec.toNat_ofNat]
    omega

/-- An `xor` with a byte changes the least significant byte only. -/
theorem leInt_xor_head (b x : Byte) (a : Bytes) : leInt ((b ^^^ x) :: a) = leInt (b :: a) ^^^ x.toNat := by
  have hb : b.toNat < 2 ^ 8 := b.isLt
  have hx : x.toNat < 2 ^ 8 := x.isLt
  have hdiv : (leInt (b :: a) ^^^ x.toNat) / 2 ^ 8 = leInt a := by
    rw [Nat.xor_div_two_pow, Nat.div_eq_of_lt hx, Nat.xor_zero, leInt]
    omega
  have hmod : (leInt (b :: a) ^^^ x.toNat) % 2 ^ 8 = b.toNat ^^^ x.toNat := by
    have hlow : leInt (b :: a) % 2 ^ 8 = b.toNat := by rw [leInt]; omega
    rw [Nat.xor_mod_two_pow, hlow, Nat.mod_eq_of_lt hx]
  rw [leInt, BitVec.toNat_xor, ← hdiv, ← hmod]
  exact Nat.mod_add_div _ _

/-- The reduction step of the loop. -/
theorem leInt_mulAlphaBytes {t : Bytes} (ht : t.length = 16) :
    leInt (mulAlphaBytes t) =
      if (shiftBytes t 0).2 = 1 then leInt (shiftBytes t 0).1 ^^^ 0x87 else leInt (shiftBytes t 0).1 := by
  have hlen := length_shiftBytes t 0
  simp only [mulAlphaBytes]
  split
  · cases hr : (shiftBytes t 0).1 with
    | nil => simp [hr, ht] at hlen
    | cons b rest => exact leInt_xor_head b 0x87 rest
  · rfl

theorem length_mulAlphaBytes (t : Bytes) : (mulAlphaBytes t).length = t.length := by
  have hlen := length_shiftBytes t 0
  simp only [mulAlphaBytes]
  split
  · cases hr : (shiftBytes t 0).1 <;> simp [← hlen, hr]
  · exact hlen

/-- The byte form of `mul_alpha` (`46_xts.md` R142). -/
theorem mulAlpha_eq_mulAlphaBytes {t : Bytes} (ht : t.length = 16) : mulAlpha t = mulAlphaBytes t := by
  have hlt := leInt_lt t
  have hrest := leInt_lt (shiftBytes t 0).1
  have hshift := leInt_shiftBytes t (Nat.zero_le 1)
  rw [length_shiftBytes] at hrest
  rw [ht] at hlt hrest hshift
  apply leInt_injective (by rw [length_mulAlpha, length_mulAlphaBytes, ht])
  rw [leInt_mulAlpha ht, leInt_mulAlphaBytes ht]
  by_cases htop : 2 ^ 127 ≤ leInt t
  · have hcarry : (shiftBytes t 0).2 = 1 := by omega
    have hvalue : leInt (shiftBytes t 0).1 = leInt t * 2 - 2 ^ 128 := by omega
    rw [if_pos htop, if_pos hcarry, hvalue]
  · have hcarry : (shiftBytes t 0).2 = 0 := by omega
    rw [if_neg htop, hcarry, if_neg (by simp)]
    omega

/-! The bijection -/

/-- The reduced value is odd and the other is even, so the result tells whether the top bit was set. -/
theorem mulAlpha_injective {t u : Bytes} (ht : t.length = 16) (hu : u.length = 16) (h : mulAlpha t = mulAlpha u) :
    t = u := by
  have hodd : ∀ v, 2 ^ 127 ≤ v → ((v * 2 - 2 ^ 128) ^^^ 0x87) % 2 = 1 := by
    intro v hv
    rw [Nat.xor_mod_two_eq]
    omega
  have heq := congrArg leInt h
  rw [leInt_mulAlpha ht, leInt_mulAlpha hu] at heq
  apply leInt_injective (ht.trans hu.symm)
  split at heq <;> split at heq
  · have := Nat.xor_left_injective heq
    omega
  · have := hodd (leInt t) (by assumption)
    omega
  · have := hodd (leInt u) (by assumption)
    omega
  · omega

/-- A one-to-one function on the finitely many blocks is onto. -/
theorem mulAlpha_surjective {u : Bytes} (hu : u.length = 16) : ∃ t : Bytes, t.length = 16 ∧ mulAlpha t = u := by
  have : Finite (Block 16) := inferInstanceAs (Finite (List.Vector Byte 16))
  have hinj : Function.Injective fun t : Block 16 => (⟨mulAlpha t.1, length_mulAlpha t.1⟩ : Block 16) :=
    fun t v h => Subtype.ext (mulAlpha_injective t.2 v.2 (congrArg Subtype.val h))
  obtain ⟨t, ht⟩ := Finite.surjective_of_injective hinj ⟨u, hu⟩
  exact ⟨t.1, t.2, congrArg Subtype.val ht⟩

/-- Settles O28: the value, the byte loop, which doubles the same value, and the bijection. -/
theorem multiplicationByAlpha : Obligations.MultiplicationByAlpha :=
  ⟨fun t ht => ⟨leInt_mulAlpha ht, mulAlpha_eq_mulAlphaBytes ht, length_mulAlpha t⟩,
    fun _ _ => mulAlpha_injective, fun _ => mulAlpha_surjective⟩

end Sys2Proof.Machine
end

section
/-! Proofs: the block operations, ciphertext stealing and the data commands in XTS (`46_xts.md`). -/

namespace Sys2Proof.Machine

/-! The block operation -/

/-- `XtsEnc` and `XtsDec`: the block under `TWEAK` before it is advanced (`46_xts.md` R143, R144). -/
theorem chainOut_xts {mode : Mode} (hm : mode = .xts) (dir : Dir) (p : Primitive) (k x : Bytes) (c : Chain) :
    chainOut dir mode p k x c = xtsFunction dir p k c.tweak x := by
  subst hm
  cases dir <;> rfl

theorem blockOp_xts {s : State} (hm : s.mode = .xts) (dir : Dir) (x : Bytes) :
    blockOp dir x s = (xtsFunction dir s.prim s.k1 s.tweak x,
      { s with tweak := mulAlpha s.tweak, blkIdx := s.blkIdx + 1 }) := by
  rw [blockOp_eq, chainOut_xts hm, chainNext_xts hm]
  rfl

/-! Ciphertext stealing -/

/-- What stealing gives out for the complete block `a` and the fragment `b`, when `a` goes under the tweak `first`: the
end of that result completes `b`, which goes under `second`, and its start comes last (`46_xts.md` R145, R146). -/
def stolenUnder (dir : Dir) (p : Primitive) (k first second a b : Bytes) : Bytes :=
  let whole := xtsFunction dir p k first a
  xtsFunction dir p k second (b ++ whole.drop b.length) ++ whole.take b.length

/-- Stealing from the tweak `t`: decryption takes the later tweak first (`46_xts.md` R145, R146). -/
def stolen : Dir → Primitive → Bytes → Bytes → Bytes → Bytes → Bytes
  | .encrypt, p, k, t, a, b => stolenUnder .encrypt p k t (mulAlpha t) a b
  | .decrypt, p, k, t, a, b => stolenUnder .decrypt p k (mulAlpha t) t a b

/-- `XtsSteal` on a complete block and a fragment. -/
theorem xtsSteal_append {a : Bytes} (ha : a.length = 16) (dir : Dir) (b : Bytes) (s : State) :
    xtsSteal dir (a ++ b) s = (stolen dir s.prim s.k1 s.tweak a b, xtsStealState s) := by
  have hlen : (a ++ b).length - 16 = b.length := by rw [List.length_append, ha, Nat.add_sub_cancel_left]
  cases dir <;>
    simp only [xtsSteal, xtsStealEnc, xtsStealDec, hlen, List.take_left' ha, List.drop_left' ha] <;> rfl

/-- `Flush` of anything but one block is `XtsSteal`, which reads no chaining register but `TWEAK`. -/
theorem xtsSteal_eq_flushOut {x : Bytes} {s : State} (hx : x.length ≠ s.prim.blockSize) {c : Chain}
    (hc : c.tweak = s.tweak) (dir : Dir) : xtsSteal dir x s = (flushOut dir .xts s.prim s.k1 x c, xtsStealState s) := by
  cases dir <;> simp only [flushOut, if_neg hx, chainOut, hc] <;> rfl

/-- Settles O35: the law of the arbiter in XTS for each direction, and stealing on a block and a fragment. -/
theorem xtsBlockOperations : Obligations.XtsBlockOperations :=
  fun x _ b s hm ha _ _ => ⟨blockOp_xts hm .encrypt x, blockOp_xts hm .decrypt x, xtsSteal_append ha .encrypt b s,
    xtsSteal_append ha .decrypt b s⟩

/-- The stealing of the two directions, as the `Flush` of a chain with the same `TWEAK`: the length is kept, and
decryption undoes encryption and leaves the same state (`46_xts.md` R146). -/
theorem Chain.Sized.decrypt_xtsSteal {s : State} {c : Chain} (h : c.Sized .xts s.prim.blockSize)
    (hc : c.tweak = s.tweak) {x : Bytes} (hlong : 16 < x.length) (hlt : x.length < 32) :
    (xtsSteal .encrypt x s).1.length = x.length ∧
    xtsSteal .decrypt (xtsSteal .encrypt x s).1 s = (x, (xtsSteal .encrypt x s).2) := by
  have h16 := h.xts rfl
  have hlen : (flushOut .encrypt .xts s.prim s.k1 x c).length = x.length :=
    h.length_flush .encrypt s.k1 (by simp) fun _ => by omega
  rw [xtsSteal_eq_flushOut (by omega) hc, xtsSteal_eq_flushOut (by rw [hlen]; omega) hc,
    h.decrypt_stealing s.k1 hlong hlt]
  exact ⟨hlen, rfl⟩

/-- Settles O36: stealing reads `TWEAK` only, so the other chaining registers may be taken to hold zeros. -/
theorem ciphertextStealingRoundTrip : Obligations.CiphertextStealingRoundTrip := by
  intro x s h16 _ htweak hlong hle
  have hsized : Chain.Sized .xts s.bs ⟨zeros s.bs, zeros s.bs, s.tweak⟩ :=
    ⟨length_zeros _, length_zeros _, htweak, fun _ => h16⟩
  exact hsized.decrypt_xtsSteal rfl hlong (by omega)

/-! A run of blocks -/

theorem chainOuts_xts {mode : Mode} (hm : mode = .xts) (dir : Dir) (p : Primitive) (k : Bytes) (n : Nat) (m : Bytes)
    (c : Chain) :
    chainOuts dir mode p k n m c = blocksOut n fun j =>
      xtsFunction dir p k (tweakAt c.tweak j) (blockAt p.blockSize m j) := by
  simp only [chainOuts_eq_blocksOut, chainOut_xts hm, chainAfter_xts hm]

theorem blocksOut_succ (n : Nat) (f : Nat → Bytes) : blocksOut (n + 1) f = blocksOut n f ++ f n := by
  simp [blocksOut, List.range_succ]

/-! A whole command -/

/-- A data command in READY and XTS that does not end a short sector: the complete blocks but the most recent one are
processed; with LAST the rest is flushed and `CARRY` is empty (`41_engine_commands.md` R93 to R96). -/
theorem exec_dataInstr_of_xts {s : State} (hbs : 1 ≤ s.bs) (ready : s.phase = .ready) (hm : s.mode = .xts) (dir : Dir)
    {last : Bool} {data : Bytes} (long : ¬ (last = true ∧ s.pos + data.length < s.bs)) :
    let buf := s.carry ++ data
    let n := buf.length / s.bs - 1
    let rest := buf.drop (n * s.bs)
    let c := { s.chain with tweak := tweakAt s.tweak n }
    exec (dataInstr dir last data) s = .next
      { s.moved (if last then flushChain s.mode s.prim s.k1 rest c else c) (if last then [] else rest)
          (s.blkIdx + n + if last then 1 else 0) with
        phase := if last then .done else .ready
        pos := s.pos + data.length
        outbox := s.outbox ++ [okAnswer ((blocksOut n fun j =>
            xtsFunction dir s.prim s.k1 (tweakAt s.tweak j) (blockAt s.bs buf j)) ++
          if last then flushOut dir s.mode s.prim s.k1 rest c else [])] } := by
  have hblocks : ∀ len, readyBlocks s.mode s.bs len = len / s.bs - 1 := fun _ => if_pos hm
  have hcount : flushBlocks s.mode = 1 := if_pos hm
  simp only [exec_dataInstr, dataCommand_ready dir last data s hbs ready fun short => long short.2, State.streamed,
    State.streamOut, hblocks, hcount, chainAfter_xts hm, chainOuts_xts hm,
    flushCarry_eq_nil (mode := s.mode) (by simp [hm]) (by simp [hm]), ready]
  cases last <;> rfl

/-- Settles O42: without LAST nothing is flushed, and `PHASE` stays READY. -/
theorem xtsDataCommandsBeforeLast : Obligations.XtsDataCommandsBeforeLast := by
  intro dir data s hp ready hm
  rw [exec_dataInstr_of_xts hp.1 ready hm dir (by simp)]
  simp only [Bool.false_eq_true, if_false, List.append_nil, ← ready]
  rfl

/-! The end of a sector -/

/-- The held block alone is an ordinary block (`46_xts.md` R143, R144). -/
theorem flush_xts_block {mode : Mode} (hm : mode = .xts) {p : Primitive} {x : Bytes} (hx : x.length = p.blockSize)
    (dir : Dir) (k : Bytes) (c : Chain) :
    flushOut dir mode p k x c = xtsFunction dir p k c.tweak x ∧
    flushChain mode p k x c = { c with tweak := mulAlpha c.tweak } := by
  subst hm
  exact ⟨(if_pos hx).trans (chainOut_xts rfl dir p k x c), (flushChain_xts rfl p k x c).trans (if_pos hx)⟩

/-- The held block with a fragment after it goes through stealing (`46_xts.md` R145, R146). -/
theorem flush_xts_fragment {mode : Mode} (hm : mode = .xts) {p : Primitive} {x : Bytes} (hx : x.length ≠ p.blockSize)
    (dir : Dir) (k : Bytes) (c : Chain) :
    flushOut dir mode p k x c = stolen dir p k c.tweak (x.take 16) (x.drop 16) ∧
    flushChain mode p k x c = { c with tweak := mulAlpha (mulAlpha c.tweak) } := by
  subst hm
  refine ⟨?_, (flushChain_xts rfl p k x c).trans (if_neg hx)⟩
  have hdrop : x.length - 16 = (x.drop 16).length := List.length_drop.symm
  simp only [flushOut, if_neg hx, hdrop]
  cases dir <;> rfl

/-- Settles O43: what waits for `Flush` is the last block of a sector that ends on a block boundary, and the last
complete block with the fragment of any other. -/
theorem xtsDataCommandsWithLast : Obligations.XtsDataCommandsWithLast := by
  intro dir data s h ready hm long
  have h16 : s.bs = 16 := (h.key_xts (by simp [ready]) hm).2
  have hbuf : 16 ≤ (s.carry ++ data).length := by
    rw [List.length_append, ← h16, ← h.xts_buffered ready hm, h16]
    exact long
  have hexec := exec_dataInstr_of_xts h.admissible.1 ready hm dir (last := true) (data := data) (by omega)
  dsimp only at hexec ⊢
  rw [hexec, h16]
  generalize s.carry ++ data = buf at *
  obtain ⟨n, hn⟩ : ∃ n, buf.length / 16 = n + 1 := ⟨buf.length / 16 - 1, by omega⟩
  simp only [hn, Nat.add_sub_cancel, if_true]
  refine ⟨fun haligned => ?_, fun hfragment => ?_⟩
  · have hrest : (buf.drop (n * 16)).length = 16 := by rw [List.length_drop]; omega
    have hlast : buf.drop (n * 16) = blockAt 16 buf n := (List.take_of_length_le hrest.le).symm
    obtain ⟨hout, hchain⟩ := flush_xts_block hm (hrest.trans h16.symm) dir s.k1
      { s.chain with tweak := tweakAt s.tweak n }
    rw [hout, hchain, mulAlpha_tweakAt, hlast, ← blocksOut_succ]
    rfl
  · have hrest : (buf.drop (n * 16)).length ≠ 16 := by rw [List.length_drop]; omega
    have hb : (buf.drop (n * 16)).drop 16 = buf.drop ((n + 1) * 16) := by rw [List.drop_drop, Nat.add_mul]
    obtain ⟨hout, hchain⟩ := flush_xts_fragment hm (ne_of_ne_of_eq hrest h16.symm) dir s.k1
      { s.chain with tweak := tweakAt s.tweak n }
    rw [hout, hchain, mulAlpha_tweakAt, mulAlpha_tweakAt, hb, List.append_assoc]
    cases dir with
    | encrypt =>
      rw [stolen, mulAlpha_tweakAt]
      rfl
    | decrypt =>
      rw [stolen, mulAlpha_tweakAt]
      rfl

end Sys2Proof.Machine
end

section
/-! Proofs: the illegal packets and worked headers (`30_encoding.md` R70 and section 9, `60_exceptions.md` R168). -/

namespace Sys2Proof.Machine

/-! What each format rejects is listed -/

theorem illegal_of_decodeK_error {h : Word} {payload : Bytes} {e : Illegal} (op : field 31 28 h = 1)
    (hd : decodeK h payload = .error e) : IllegalPacket ⟨h, payload⟩ := by
  simp only [IllegalPacket, declaredLength, op]
  unfold decodeK at hd
  split at hd
  · rename_i number
    have := (modeOfNumber_eq_none_iff _).mp number
    tauto
  · split at hd
    · cases hd
    · tauto

theorem illegal_of_decodeD_error {dir : Dir} {h : Word} {payload : Bytes} {e : Illegal}
    (op : field 31 28 h = dirOp dir) (hd : decodeD dir h payload = .error e) : IllegalPacket ⟨h, payload⟩ := by
  have hrejected : field 26 24 h ≠ 0 ∨ payload.length ≠ field 23 0 h := by
    by_contra! hlegal
    obtain ⟨zero, dlen⟩ := hlegal
    cases (decodeD_ok dir zero dlen).symm.trans hd
  cases dir <;> simp only [IllegalPacket, declaredLength, op, dirOp] <;> tauto

theorem illegal_of_decodeZ_error {i : Instr} {h : Word} {payload : Bytes} {e : Illegal}
    (op : field 31 28 h = 4 ∨ field 31 28 h = 5) (hd : decodeZ i h payload = .error e) :
    IllegalPacket ⟨h, payload⟩ := by
  have hrejected : field 27 0 h ≠ 0 ∨ payload.length ≠ 0 := by
    by_contra! hlegal
    simp [decodeZ, hlegal] at hd
  rcases op with op | op <;> simp only [IllegalPacket, declaredLength, op] <;> tauto

/-- The converse of `Reads.not_illegal`: the decoder rejects nothing but the packets of `30_encoding.md` R70. -/
theorem illegal_of_decode_error {p : Packet} {e : Illegal} (hd : decode (.packet p) = .error e) : IllegalPacket p := by
  simp only [decode, decodePacket] at hd
  split at hd
  · rename_i op
    exact illegal_of_decodeK_error op hd
  · rename_i op
    exact illegal_of_decodeD_error (dir := .encrypt) op hd
  · rename_i op
    exact illegal_of_decodeD_error (dir := .decrypt) op hd
  · rename_i op
    exact illegal_of_decodeZ_error (.inl op) hd
  · rename_i op
    exact illegal_of_decodeZ_error (.inr op) hd
  · have hreserved : field 31 28 p.header = 0 ∨ 6 ≤ field 31 28 p.header := by
      simp only [imp_false] at *
      omega
    exact hreserved.imp_right .inl

theorem exists_decode_iff (p : Packet) : (∃ i, decode (.packet p) = .ok i) ↔ ¬ IllegalPacket p := by
  refine ⟨fun ⟨i, hd⟩ => (reads_of_decode hd).not_illegal, fun legal => ?_⟩
  cases hd : decode (.packet p) with
  | ok i => exact ⟨i, rfl⟩
  | error e => exact absurd (illegal_of_decode_error hd) legal

/-- Settles O4: each format rejects the packets listed for it and no others. -/
theorem illegalPacketsRaiseIllegalCommand : Obligations.IllegalPacketsRaiseIllegalCommand :=
  fun _ p _ hin => ⟨exists_decode_iff p, step_of_illegal hin⟩

theorem decode_of_encode_eq {i : Instr} {r : Request} (hi : WellFormed i = true) (hr : encode i = r) :
    decode r = .ok i :=
  hr ▸ decodeOfEncodeIsTheCommand i hi

/-- Settles O6: each packet is the encoding of the command it stands for. -/
theorem workedHeadersDecode : Obligations.WorkedHeadersDecode := by
  refine ⟨?_, ?_, ?_, ?_, ?_, ?_, ?_, ?_, ?_⟩ <;> exact decode_of_encode_eq (by decide) (by decide)

end Sys2Proof.Machine
end

section
/-! Proofs: when CONSTRUCT, the data commands and RESTART raise an error, and which (`60_exceptions.md` R162, R165 to
R171). -/

namespace Sys2Proof.Machine

/-- In IDLE the first check that fails names the error (`41_engine_commands.md` R91). -/
theorem exec_construct_of_error {mode : Mode} {key iv ctr sector : Bytes} {s : State} {e : Error}
    (idle : s.phase = .idle) (he : constructError s.prim mode key iv ctr sector = some e) :
    exec (constructInstr mode key iv ctr sector) s = .next (s.errored e.code) := by
  rw [exec_constructInstr, construct, if_pos idle, he]
  rfl

/-- Settles O15: what the earlier checks found leaves one outcome of the check order. -/
theorem constructRaisesTheFirstErrorThatApplies : Obligations.ConstructRaisesTheFirstErrorThatApplies := by
  intro mode key iv ctr sector s idle
  have hfirst := constructError_eq s.prim mode key iv ctr sector
  unfold ConstructAccepted at hfirst
  refine ⟨fun hkey => ?_, fun hkey hop => ?_, fun hkey hop hiv => ?_, fun hkey hop hctr => ?_, fun accepted => ?_⟩
  · exact exec_construct_of_error (e := .invalidKeyLength) idle (by tauto)
  · exact exec_construct_of_error (e := .unsupportedModeParameter) idle (by tauto)
  · exact exec_construct_of_error (e := .invalidIVLength) idle (by tauto)
  · exact exec_construct_of_error (e := .invalidCounterLength) idle (by tauto)
  · exact ⟨_, exec_construct_of_accepted idle accepted, rfl, rfl, rfl, rfl⟩

/-- Settles O16: the phase is looked at before the operands. -/
theorem outOfPhaseCommandsRaiseInvalidState : Obligations.OutOfPhaseCommandsRaiseInvalidState := by
  refine fun s => ⟨fun started mode key iv ctr sector => ?_, fun hphase dir last data => ?_, fun idle => ?_⟩
  · rw [exec_constructInstr, construct_of_started mode key iv ctr sector started]
  · rw [exec_dataInstr, dataCommand_phase dir last data s hphase]
    rfl
  · rw [exec, execRestart, if_pos idle]
    rfl

theorem errored_outbox (s : State) (code : Nat) : (s.errored code).outbox = s.outbox ++ [errorAnswer code] := rfl

/-- An accepted data command is answered `OK`. -/
theorem dataCommand_outbox_of_long (dir : Dir) {last : Bool} {data : Bytes} {s : State} (ready : s.phase = .ready)
    (long : ¬ (s.mode = .xts ∧ last = true ∧ s.pos + data.length < s.bs)) :
    ∃ out, (dataCommand dir last data s).outbox = s.outbox ++ [okAnswer out] := by
  obtain ⟨c, b, n, hw⟩ := dataEffect_writes dir last data s
  exact ⟨(dataEffect dir last data s).1, by
    simp only [dataCommand, ready, if_true, if_neg long, hw, State.respond_outbox, moved_outbox, okAnswer]⟩

/-- `InsufficientDataForXTS` is the answer exactly at the end of a short XTS sector (`60_exceptions.md` R170). -/
theorem dataCommand_insufficient_iff (dir : Dir) (last : Bool) (data : Bytes) (s : State) :
    (dataCommand dir last data s).outbox = s.outbox ++ [errorAnswer 4] ↔
      s.phase = .ready ∧ s.mode = .xts ∧ last = true ∧ s.pos + data.length < s.bs := by
  refine ⟨fun hout => ?_, fun ⟨ready, short⟩ => ?_⟩
  · by_contra hother
    by_cases ready : s.phase = .ready
    · obtain ⟨out, hok⟩ := dataCommand_outbox_of_long dir ready fun short => hother ⟨ready, short⟩
      have := List.append_cancel_left (hok.symm.trans hout)
      exact okAnswer_ne_errorAnswer out (by decide) (by decide) (List.singleton_inj.mp this)
    · rw [dataCommand_phase dir last data s ready, raise_eq_errored, errored_outbox] at hout
      have := errorAnswer_injective (by decide) (by decide) (List.singleton_inj.mp (List.append_cancel_left hout))
      exact absurd this (by decide)
  · rw [dataCommand_short dir last data s ready short]
    rfl

/-- Settles O20: the answer tells that the sector was short, and then the error is all that happened. -/
theorem insufficientDataForXtsExactlyWhenShort : Obligations.InsufficientDataForXtsExactlyWhenShort := by
  intro dir last data s t ht
  rw [exec_dataInstr] at ht
  cases ht
  refine ⟨dataCommand_insufficient_iff dir last data s, fun hout => ?_⟩
  obtain ⟨ready, short⟩ := (dataCommand_insufficient_iff dir last data s).mp hout
  rw [dataCommand_short dir last data s ready short]
  exact ⟨rfl, ready, rfl⟩

end Sys2Proof.Machine
end

section
/-! Proofs: what every step keeps: it completes, an error changes only `STICKY`, and reset gives the reset values
(`60_exceptions.md` R164, R173, `70_reset_and_hazards.md` R190, R191, R203). -/

namespace Sys2Proof.Machine

theorem exec_completes_prim (i : Instr) (s : State) : ∃ t, exec i s = .next t ∧ t.prim = s.prim := by
  rcases exec_answer i s with ⟨t, -, ht, -, -, hprim, -⟩ | ⟨e, ht⟩ | ⟨n, -, ht⟩
  · exact ⟨t, ht, hprim⟩
  · exact ⟨_, ht, rfl⟩
  · exact ⟨_, ht, rfl⟩

theorem step_completes_prim (s : State) : ∃ t, step s = .next t ∧ t.prim = s.prim := by
  rcases step_cases s with ⟨-, hs⟩ | ⟨rest, -, hs⟩ | ⟨r, rest, i, -, -, hs⟩ | ⟨r, rest, e, -, -, hs⟩
  · exact ⟨_, hs, rfl⟩
  · exact ⟨_, hs, rfl⟩
  · obtain ⟨t, ht, hprim⟩ := exec_completes_prim i { s with inbox := rest }
    exact ⟨t, hs.trans ht, hprim⟩
  · exact ⟨_, hs, rfl⟩

/-- Settles O8: a step ends in one of the ways a command ends, or without one, and takes one event. -/
theorem everyStepCompletes : Obligations.EveryStepCompletes := fun s =>
  have ⟨t, hs, hprim⟩ := step_completes_prim s
  ⟨t, hs, hprim, step_inbox hs⟩

/-- Settles O10: both are `State.resetWith`, which is the table, with the fields that are kept. -/
theorem hardwareResetAndDestroyGiveTheResetValues : Obligations.HardwareResetAndDestroyGiveTheResetValues :=
  fun _ => ⟨fun _ hin => step_of_hardwareReset hin, rfl⟩

/-- A non-zero code tells that the command raised an error. -/
theorem raised_of_exec_response {i : Instr} {s t : State} {rw0 rw1 : Word} {out : Bytes} (h : exec i s = .next t)
    (hout : t.outbox = s.outbox ++ [.response rw0 rw1 out]) (hcode : rw0 ≠ 0) : ∃ e, t = s.raise e := by
  rcases exec_answer i s with ⟨u, out', hu, hok, -⟩ | ⟨e, he⟩ | ⟨n, -, hn⟩
  · cases hu.symm.trans h
    cases List.singleton_inj.mp (List.append_cancel_left (hok.symm.trans hout))
    exact absurd rfl hcode
  · cases he.symm.trans h
    exact ⟨e, rfl⟩
  · cases hn.symm.trans h
    cases List.singleton_inj.mp (List.append_cancel_left hout)

/-- A non-zero code tells that the step raised an error, by its command or on an illegal packet. -/
theorem raised_of_step_response {s t : State} {rw0 rw1 : Word} {out : Bytes} (h : step s = .next t)
    (hout : t.outbox = s.outbox ++ [.response rw0 rw1 out]) (hcode : rw0 ≠ 0) :
    ∃ e, t = { s with inbox := s.inbox.tail }.raise e := by
  rcases step_cases s with ⟨-, hs⟩ | ⟨rest, -, hs⟩ | ⟨r, rest, i, hin, -, hs⟩ | ⟨r, rest, e, hin, -, hs⟩
  · cases hs.symm.trans h
    simp at hout
  · cases hs.symm.trans h
    simp at hout
  · rw [hin]
    exact raised_of_exec_response (s := { s with inbox := rest }) (hs.symm.trans h) hout hcode
  · cases hs.symm.trans h
    exact ⟨.illegalCommand, by rw [hin]; rfl⟩

/-- Settles O18: the response is that of the error the step raised. -/
theorem errorsChangeOnlySticky : Obligations.ErrorsChangeOnlySticky := by
  intro s t rw0 rw1 out h hout hcode
  obtain ⟨e, rfl⟩ := raised_of_step_response h hout hcode
  cases List.singleton_inj.mp (List.append_cancel_left hout)
  exact ⟨e.code, error_code_pos e, error_code_le e, rfl, rfl, rfl, rfl⟩

end Sys2Proof.Machine
end
